-- ==== Sys2Proof/Word.lean ====
section
/-!
DEFINITION. The words of the block and the value types its operations exchange with the host
(spec/00_scope.md R12, R15; spec/10_state.md R42 to R45; spec/60_exceptions.md R240).
Only types stand here: what is computed from them stands in Decode.lean and under Machine/.
-/

namespace Sys2Proof

/-- A byte, an unsigned 8-bit value (R12). -/
abbrev Byte := BitVec 8

/-- A 16-bit unsigned value: a message length or a frameID (R15). -/
abbrev Half := BitVec 16

/-- The 32-bit value of DISCARD_COUNT, `COUNT_W` = 32 (R10, R38). -/
abbrev Count := BitVec 32

/-- The five message types (R16, R42). Their codes are those of R82, in `MsgType.code`. -/
inductive MsgType where
  | control | data | error | ack | info
  deriving DecidableEq, Repr

/-- The error kinds of R240. -/
inductive ErrorKind where
  /-- Fewer than 4 input bytes: DECODE only. -/
  | truncated
  /-- Byte 0 is no type code of R82: DECODE, and FEED per bad candidate. -/
  | unknownType
  /-- The input length is not `L + 4`: DECODE only. -/
  | lengthMismatch
  /-- The last byte is not the XOR of the others: DECODE, and FEED per bad candidate. -/
  | checksumMismatch
  /-- A Data payload under 4 bytes, or a segmentID out of range: PARSE_SEGMENT, ADD_SEGMENT, FEED. -/
  | invalidSegment
  /-- An incomplete record evicted: counted in DISCARD_COUNT, never returned (R245). -/
  | incompleteFrameDiscarded
  deriving DecidableEq, Repr

/-- A Message value (R42). As R42 allows, only `type` and `payload` are held; `length` and `checksum`
are computed from them (`Message.length`, `Message.checksum` in Decode.lean), so that the invariant of
R42 cannot be false (log 10). -/
structure Message where
  type    : MsgType
  payload : List Byte
  deriving DecidableEq, Repr

/-- A Segment value (R43), as PARSE_SEGMENT returns it and ADD_SEGMENT takes it. -/
structure Segment where
  frameID       : Half
  segmentID     : Byte
  totalSegments : Byte
  data          : List Byte
  deriving DecidableEq, Repr

/-- A ReassembledFrame value (R44). -/
structure ReassembledFrame where
  frameID : Half
  payload : List Byte
  deriving DecidableEq, Repr

/-- An event of a response (R45). -/
inductive Event where
  | msg (m : Message)
  | err (e : ErrorKind)
  | frame (f : ReassembledFrame)
  deriving DecidableEq, Repr

/-- The response of one operation (R45). -/
inductive Response where
  /-- No response value: RESET, and power-on before any operation. -/
  | none
  /-- The byte sequence ENCODE returns. -/
  | bytes (bs : List Byte)
  /-- The Message a successful DECODE returns. -/
  | message (m : Message)
  /-- The Segment a successful PARSE_SEGMENT returns. -/
  | segment (g : Segment)
  /-- The error kind a failed DECODE or PARSE_SEGMENT returns. -/
  | error (e : ErrorKind)
  /-- The events FEED, FEED_BYTE and ADD_SEGMENT return, in the order they were emitted. -/
  | events (es : List Event)
  deriving DecidableEq, Repr

/-- The two encoding spaces of the opcode table (spec/30_encoding.md, preamble): commands of the host
interface (R95, R96) and messages on the wire (R80, R82). They use the same byte values. -/
inductive Space where
  | command
  | wire
  deriving DecidableEq, Repr

/-- Why a byte sequence is no command: the decoder's rejections, by name. -/
inductive CommandReject where
  /-- The opcode byte is 0x00 or 0x08 to 0xFF (R97). -/
  | illegalOpcode
  /-- The bytes end before the command's declared length (R96, R283). -/
  | cutShort
  /-- Bytes follow the command's declared length (R283: the operand count matches the bytes that follow). -/
  | bytesLeftOver
  deriving DecidableEq, Repr

end Sys2Proof
end

