-- ==== Sys2Proof/Config.lean ====
section
/-!
DEFINITION. The parameters of the block (spec/00_scope.md R10, R11) and the one value the spec leaves
OPEN without a default.
-/

namespace Sys2Proof

/-- The two parameters an implementation chooses (R10, D7, D15). Fixed for the whole run (R40). -/
structure Params where
  /-- `MAX_FRAMES`: the largest number of concurrently tracked incomplete frames, at least 1. -/
  maxFrames : Nat
  /-- `STORE_CAP`: the capacity of the reassembly store in bytes, `none` for unbounded. -/
  storeCap  : Option Nat
  deriving DecidableEq, Repr

namespace Config

/-- `LEN_MAX`, the largest payload length (R10). -/
abbrev lenMax : Nat := 65535

/-- `HDR_BYTES`, the message header: type and length (R10). -/
abbrev hdrBytes : Nat := 3

/-- `MIN_MSG`, the smallest serialized message (R10). -/
abbrev minMsg : Nat := 4

/-- `MAX_MSG`, the largest serialized message (R10). -/
abbrev maxMsg : Nat := 65539

/-- `SEGHDR_BYTES`, the segment header (R10). -/
abbrev segHdrBytes : Nat := 4

/-- `TOTAL_MAX`, the largest totalSegments (R10). -/
abbrev totalMax : Nat := 255

/-- The bytes of storage the deframer buffer needs between operations (R11, R33). -/
abbrev bufMax : Nat := 65538

/-- One less than the `MAX_FRAMES` of the state after reset. The spec leaves `MAX_FRAMES` OPEN (D7) and
says to assume no default (spec/91_not_in_source.md), so it has no body and no proof can see a value (log 5). -/
opaque maxFramesLessOne : Nat

/-- The parameters of the state after reset: `MAX_FRAMES` any integer at least 1, `STORE_CAP` at its
default, unbounded (R10). -/
def params : Params := { maxFrames := maxFramesLessOne + 1, storeCap := none }

end Config

end Sys2Proof
end

