-- ==== Sys2Proof/Syntax.lean ====
section
/-!
DEFINITION. The instructions: one constructor for each row of spec/opcode_table.json. Seven commands of
the host interface (spec/30_encoding.md R95, R96) and five wire message types (R82).
-/

namespace Sys2Proof

/-- An instruction of the block. The first seven are the operations the host issues (R95), with the
operands of R96. The last five are the messages the wire carries (R82), which the deframer runs one by
one as it extracts them from its buffer (R126 to R128, R156, R160). -/
inductive Instr where
  /-- ENCODE: serialize one message, its type given as a code byte (R120). -/
  | encode (tc : Byte) (payload : List Byte)
  /-- DECODE: parse exactly one serialized message (R122). -/
  | decode (bytes : List Byte)
  /-- FEED: append a chunk and extract every complete message (R150). -/
  | feed (chunk : List Byte)
  /-- FEED_BYTE: feed one byte (R162). -/
  | feedByte (b : Byte)
  /-- PARSE_SEGMENT: split a Data payload into segment fields (R190). -/
  | parseSegment (payload : List Byte)
  /-- ADD_SEGMENT: insert one segment (R191). -/
  | addSegment (frameID : Half) (segmentID totalSegments : Byte) (data : List Byte)
  /-- RESET: discard all connection state (R230). -/
  | reset
  /-- MSG_CONTROL: a Control message, code 0x01 (R126). -/
  | msgControl (payload : List Byte)
  /-- MSG_DATA: a Data message, code 0x02 (R127). -/
  | msgData (payload : List Byte)
  /-- MSG_ERROR: an Error message, code 0x03 (R128). -/
  | msgError (payload : List Byte)
  /-- MSG_ACK: an Ack message, code 0x04 (R128). -/
  | msgAck (payload : List Byte)
  /-- MSG_INFO: an Info message, code 0x05 (R128). -/
  | msgInfo (payload : List Byte)
  deriving DecidableEq, Repr

end Sys2Proof
end

