-- ==== Sys2Proof/WellFormed.lean ====
section
/-!
DEFINITION. Which instructions have an encoding: every operand count fits the field that carries it
(spec/30_encoding.md R80, R96).
-/

namespace Sys2Proof

/-- An instruction that its encoding can spell. The counts of ENCODE, PARSE_SEGMENT, ADD_SEGMENT and of a
message are 16 bits, those of DECODE and FEED 32 bits (R80, R96). ENCODE's type byte may be any byte: an
unrecognized one is spelled and then refused (R120, R248). -/
def Instr.wellFormed : Instr → Bool
  | .encode _ payload => payload.length ≤ Config.lenMax
  | .decode bytes => bytes.length < 2 ^ 32
  | .feed chunk => chunk.length < 2 ^ 32
  | .feedByte _ => true
  | .parseSegment payload => payload.length ≤ Config.lenMax
  | .addSegment _ _ _ data => data.length ≤ Config.lenMax
  | .reset => true
  | .msgControl payload => payload.length ≤ Config.lenMax
  | .msgData payload => payload.length ≤ Config.lenMax
  | .msgError payload => payload.length ≤ Config.lenMax
  | .msgAck payload => payload.length ≤ Config.lenMax
  | .msgInfo payload => payload.length ≤ Config.lenMax

/-- The encoding space an instruction is spelled in. -/
def Instr.space : Instr → Space
  | .encode .. | .decode _ | .feed _ | .feedByte _ | .parseSegment _ | .addSegment .. | .reset => .command
  | .msgControl _ | .msgData _ | .msgError _ | .msgAck _ | .msgInfo _ => .wire

end Sys2Proof
end

