-- ==== Sys2Proof/Decode.lean ====
section
/-!
DEFINITION. From bytes to instructions and back: the byte helpers of spec/00_scope.md R14, the wire
format of messages (spec/30_encoding.md R80 to R85), the command format (R95 to R97), the encoder of both,
and the decoder by opcode-table word that the host asks for.
-/

namespace Sys2Proof

/-! ## Byte helpers (R14) -/

/-- `be16(hi, lo)`, the big-endian 16-bit value of two bytes (R14, R63). -/
def be16 (hi lo : Byte) : Half := hi.setWidth 16 * 256 + lo.setWidth 16

/-- `be16_bytes(v)`, the two bytes `v[15:8]`, `v[7:0]` (R14). -/
def be16Bytes (v : Half) : List Byte := [v.extractLsb' 8 8, v.extractLsb' 0 8]

/-- The big-endian value of the four count bytes of DECODE and FEED (R96), without wrap-around (R15). -/
def be32 (b3 b2 b1 b0 : Byte) : Nat :=
  ((b3.toNat * 256 + b2.toNat) * 256 + b1.toNat) * 256 + b0.toNat

/-- The four big-endian bytes of a count (R96). -/
def be32Bytes (n : Nat) : List Byte :=
  [BitVec.ofNat 8 (n / 2 ^ 24), BitVec.ofNat 8 (n / 2 ^ 16), BitVec.ofNat 8 (n / 2 ^ 8), BitVec.ofNat 8 n]

/-- `xorfold(s)`, the XOR of all the bytes, 0x00 of none (R14, R124). -/
def xorfold : List Byte → Byte
  | [] => 0
  | b :: s => b ^^^ xorfold s

/-! ## Message type codes (R82, R130) -/

/-- `code(t)` (R130). -/
def MsgType.code : MsgType → Byte
  | .control => 0x01
  | .data => 0x02
  | .error => 0x03
  | .ack => 0x04
  | .info => 0x05

/-- `type_of(b)`, defined only when `recognized(b)` (R130). -/
def typeOf (b : Byte) : Option MsgType :=
  if b = 0x01 then some .control
  else if b = 0x02 then some .data
  else if b = 0x03 then some .error
  else if b = 0x04 then some .ack
  else if b = 0x05 then some .info
  else none

/-- `recognized(b)`: the byte is a code of R82 (R83, R130). -/
def recognized (b : Byte) : Bool := (typeOf b).isSome

/-! ## The wire format of a message (R80, R81) -/

/-- The bytes the checksum covers: type, big-endian length, payload (R80, R81). -/
def messageBody (tc : Byte) (payload : List Byte) : List Byte :=
  tc :: be16Bytes (BitVec.ofNat 16 payload.length) ++ payload

/-- A serialized message: its body and then the XOR of its body (R80, R81, R120). -/
def serialize (tc : Byte) (payload : List Byte) : List Byte :=
  messageBody tc payload ++ [xorfold (messageBody tc payload)]

/-- The length field of a Message (R42). -/
def Message.length (m : Message) : Half := BitVec.ofNat 16 m.payload.length

/-- The checksum field of a Message (R42). -/
def Message.checksum (m : Message) : Byte := xorfold (messageBody m.type.code m.payload)

/-- The wire bytes of a Message (R80). -/
def Message.wire (m : Message) : List Byte := serialize m.type.code m.payload

/-- DECODE of R122: parse exactly one serialized message, the checks in the order of R123. A sequence
with no fourth byte is the one shorter than 4 bytes. -/
def decodeWire (s : List Byte) : Except ErrorKind Message :=
  match s with
  | b0 :: b1 :: b2 :: rest@(_ :: _) =>
    match typeOf b0 with
    | none => .error .unknownType
    | some t =>
      let len := (be16 b1 b2).toNat
      if s.length ≠ len + 4 then .error .lengthMismatch
      else if s[len + 3]? ≠ some (xorfold (s.take (len + 3))) then .error .checksumMismatch
      else .ok { type := t, payload := rest.take len }
  | _ => .error .truncated

/-! ## Messages as instructions (the MSG rows of the opcode table) -/

/-- The instruction a message of the wire stands for (R126 to R128). -/
def Message.instr (m : Message) : Instr :=
  match m.type with
  | .control => .msgControl m.payload
  | .data => .msgData m.payload
  | .error => .msgError m.payload
  | .ack => .msgAck m.payload
  | .info => .msgInfo m.payload

/-- The instruction a candidate of the wire stands for, or the error kind of R240 it fails with. -/
def decodeMessage (s : List Byte) : Except ErrorKind Instr := (decodeWire s).map Message.instr

/-! ## Commands (R95, R96) -/

/-- The operand that a count of `n` bytes declares, and the bytes after it; a command whose bytes end
before its declared length is no command (R96, R283). -/
def takeOperand (n : Nat) (rest : List Byte) (mk : List Byte → Instr) :
    Except CommandReject (Instr × List Byte) :=
  if n ≤ rest.length then .ok (mk (rest.take n), rest.drop n) else .error .cutShort

/-- The command at the front of a byte sequence and the bytes after it. Total: any bytes give a command
or a named rejection. -/
def decodePrefix (bs : List Byte) : Except CommandReject (Instr × List Byte) :=
  match bs with
  | [] => .error .cutShort
  | op :: rest =>
    match op.toNat with
    | 0x01 =>
      match rest with
      | tc :: n1 :: n0 :: r => takeOperand (be16 n1 n0).toNat r (.encode tc)
      | _ => .error .cutShort
    | 0x02 =>
      match rest with
      | n3 :: n2 :: n1 :: n0 :: r => takeOperand (be32 n3 n2 n1 n0) r .decode
      | _ => .error .cutShort
    | 0x03 =>
      match rest with
      | n3 :: n2 :: n1 :: n0 :: r => takeOperand (be32 n3 n2 n1 n0) r .feed
      | _ => .error .cutShort
    | 0x04 =>
      match rest with
      | b :: r => .ok (.feedByte b, r)
      | _ => .error .cutShort
    | 0x05 =>
      match rest with
      | n1 :: n0 :: r => takeOperand (be16 n1 n0).toNat r .parseSegment
      | _ => .error .cutShort
    | 0x06 =>
      match rest with
      | f1 :: f0 :: k :: t :: n1 :: n0 :: r =>
        takeOperand (be16 n1 n0).toNat r (.addSegment (be16 f1 f0) k t)
      | _ => .error .cutShort
    | 0x07 => .ok (.reset, rest)
    | _ => .error .illegalOpcode

/-- A whole command: the operand count matches the bytes that follow (R96, R283). -/
def decodeCommand (bs : List Byte) : Except CommandReject Instr :=
  match decodePrefix bs with
  | .ok (i, []) => .ok i
  | .ok (_, _ :: _) => .error .bytesLeftOver
  | .error r => .error r

/-! ## The encoder -/

/-- The bytes of an instruction: a command in the layout of R96, a message in the layout of R80. -/
def encode : Instr → List Byte
  | .encode tc payload => 0x01 :: tc :: be16Bytes (BitVec.ofNat 16 payload.length) ++ payload
  | .decode bytes => 0x02 :: be32Bytes bytes.length ++ bytes
  | .feed chunk => 0x03 :: be32Bytes chunk.length ++ chunk
  | .feedByte b => [0x04, b]
  | .parseSegment payload => 0x05 :: be16Bytes (BitVec.ofNat 16 payload.length) ++ payload
  | .addSegment f k t data =>
    0x06 :: be16Bytes f ++ k :: t :: be16Bytes (BitVec.ofNat 16 data.length) ++ data
  | .reset => [0x07]
  | .msgControl payload => serialize (MsgType.code .control) payload
  | .msgData payload => serialize (MsgType.code .data) payload
  | .msgError payload => serialize (MsgType.code .error) payload
  | .msgAck payload => serialize (MsgType.code .ack) payload
  | .msgInfo payload => serialize (MsgType.code .info) payload

/-! ## Opcode-table words -/

/-- The longest fixed part of a command: the 7 bytes of ADD_SEGMENT before its data (R96). -/
def commandHeaderBytes : Nat := 7

/-- The `n` low bytes of a number, the least significant first: the bytes of an opcode-table word in the
order they stand in the command. -/
def wordBytes : Nat → Nat → List Byte
  | 0, _ => []
  | n + 1, w => BitVec.ofNat 8 w :: wordBytes n (w / 256)

/-- The bytes of an opcode-table word of `nbits` bits, with zero bytes after it for the operands the
table gives no bits (log 19). -/
def tableBytes (nbits w : Nat) : List Byte :=
  wordBytes ((nbits + 7) / 8) w ++ List.replicate commandHeaderBytes 0

/-- The command an opcode-table word spells. The table's rows of the wire space use the byte values of
the commands 0x01 to 0x05, and a word cannot say its space: it is read as a command (log 1). -/
def decodeTableWord (nbits w : Nat) : Option Instr :=
  match decodePrefix (tableBytes nbits w) with
  | .ok (i, _) => some i
  | .error _ => none

/-- The bytes of exactly the command an opcode-table word spells, without the zero bytes it does not
use; where the word spells no command, the word's bytes as they are. -/
def tableCommand (nbits w : Nat) : List Byte :=
  match decodePrefix (tableBytes nbits w) with
  | .ok (_, rest) => (tableBytes nbits w).take ((tableBytes nbits w).length - rest.length)
  | .error _ => wordBytes ((nbits + 7) / 8) w

end Sys2Proof
end

