-- ==== Sys2Proof/Machine/State.lean ====
section
/-!
DEFINITION. The state of the block (spec/10_state.md): the tuple (BUF, MODE, TABLE, DISCARD_COUNT, FAULT,
REFUSED), and beside it the response of the last operation, the commands the host has still to issue, and
the fixed configuration. Plain data.
-/

namespace Sys2Proof.Machine

/-- The reasons a step faults (R247). -/
inductive Fault where
  /-- An internal invariant is broken: the deframer invariant R33 or a record invariant R36 is false after
  a step, a Take goes beyond BUF (R67), an index goes beyond a sequence (R13), or a candidate decodes to
  Truncated or LengthMismatch (R161). Raised by FEED, FEED_BYTE, ADD_SEGMENT, MSG_DATA and by the end of
  every step. Safe: the spec gives this fault, and no correct run reaches it. -/
  | internalInvariant
  deriving DecidableEq, Repr

/-- The reasons a step is refused (R248). -/
inductive Refusal where
  /-- No meaning for the instruction: only an arm of exec raises it. Safe. -/
  | notModelled (mnemonic : String)
  /-- `IllegalCommand`: the opcode byte is 0x00 or 0x08 to 0xFF (R97). Raised by a step. Safe. -/
  | illegalCommand
  /-- The byte sequence is no whole command, so the model has no step for it (R283). Raised by a step. Safe. -/
  | notACommand
  /-- `UnknownEncodeType`: ENCODE with a type byte that is no code of R82 (R120). Raised by ENCODE. Safe. -/
  | unknownEncodeType
  /-- `PayloadTooLong`: ENCODE with more than 65535 payload bytes (R120). Raised by ENCODE. Safe. -/
  | payloadTooLong
  /-- `StoreFull`: storing the segment would exceed STORE_CAP (R200). Raised by ADD_SEGMENT, and by
  FEED, FEED_BYTE and MSG_DATA through ROUTE. Safe. -/
  | storeFull
  deriving DecidableEq, Repr

/-- MODE, the deframer mode (R34). -/
inductive Mode where
  | awaitingHeader
  /-- The latched type byte, recognized or not, and the latched length. -/
  | awaitingPayload (t : Byte) (len : Half)
  deriving DecidableEq, Repr

/-- A FrameAssembly record (R36). `segments` is a finite map, held as a list of (segmentID, data) with the
keys strictly rising, so that equal maps are equal lists (log 11). -/
structure FrameAssembly where
  frameID       : Half
  totalSegments : Byte
  segments      : List (Byte × List Byte)
  deriving DecidableEq, Repr

/-- The state of the block. -/
structure State where
  /-- BUF, the deframer's buffer (R32). -/
  buf          : List Byte
  /-- MODE (R34). -/
  mode         : Mode
  /-- TABLE, the records oldest first (R35). -/
  table        : List FrameAssembly
  /-- DISCARD_COUNT (R38). -/
  discardCount : Count
  /-- FAULT, sticky (R41). -/
  faultMark    : Option Fault
  /-- REFUSED, sticky (R41). -/
  refusedMark  : Option Refusal
  /-- The response of the last operation (R45). Output, not block state (log 4). -/
  response     : Response
  /-- The commands the host has still to issue, in order (R96). Input, not block state (log 2). -/
  pending      : List (List Byte)
  /-- The configuration, fixed for the run (R10, R40). No step writes it (log 5). -/
  cfg          : Params
  deriving DecidableEq, Repr

/-- The outcome of one operation or one step. -/
abbrev Result := Host.Outcome State Fault Refusal

/-- The state at power-on (R46, R270). -/
def State.reset : State where
  buf := []
  mode := .awaitingHeader
  table := []
  discardCount := 0
  faultMark := none
  refusedMark := none
  response := .none
  pending := []
  cfg := Config.params

end Sys2Proof.Machine
end

