-- ==== Sys2Proof/Machine/Operands.lean ====
section
/-!
DEFINITION. The operand forms: a Data payload read as a segment (spec/30_encoding.md R86,
spec/42_reassembler.md R190), a Control payload read as an MTU (R87), and the reassembly table and its
records read and written as finite maps (spec/10_state.md R35, R36, R49).
-/

namespace Sys2Proof.Machine

/-- PARSE_SEGMENT of R190: the segment a Data payload carries (R86). -/
def parsePayload : List Byte → Except ErrorKind Segment
  | f1 :: f0 :: k :: t :: data =>
    .ok { frameID := be16 f1 f0, segmentID := k, totalSegments := t, data := data }
  | _ => .error .invalidSegment

/-- The bytes of a Data payload that carries a segment (R86). -/
def segmentPayload (g : Segment) : List Byte :=
  be16Bytes g.frameID ++ g.segmentID :: g.totalSegments :: g.data

/-- The MTU the host reads from a Control message whose payload is 2 bytes; any other message has none
(R87, R126). The block itself does not act on it. -/
def mtuOf (m : Message) : Option Half :=
  match m.type, m.payload with
  | .control, [hi, lo] => some (be16 hi lo)
  | _, _ => none

/-! ## The segment map of a record (R36) -/

/-- The data at a key of the map. -/
def slot (k : Byte) : List (Byte × List Byte) → Option (List Byte)
  | [] => none
  | (j, d) :: rest => if j = k then some d else slot k rest

/-- The map with `d` at key `k`, replacing any data already there (R196). -/
def storeSlot (k : Byte) (d : List Byte) : List (Byte × List Byte) → List (Byte × List Byte)
  | [] => [(k, d)]
  | (j, e) :: rest =>
    if k < j then (k, d) :: (j, e) :: rest
    else if k = j then (k, d) :: rest
    else (j, e) :: storeSlot k d rest

/-- The canonical form of the map: keys strictly rising, so unique (R36). -/
abbrev SegmentsWf (m : List (Byte × List Byte)) : Prop := (m.map Prod.fst).Pairwise (· < ·)

/-- The bytes a map holds. -/
def segmentBytes : List (Byte × List Byte) → Nat
  | [] => 0
  | (_, d) :: rest => d.length + segmentBytes rest

/-- `segments[0] ++ ... ++ segments[n-1]`, or nothing where a slot is missing (R197, R13). -/
def gather (m : List (Byte × List Byte)) : Nat → Option (List Byte)
  | 0 => some []
  | n + 1 =>
    match gather m n, slot (BitVec.ofNat 8 n) m with
    | some p, some d => some (p ++ d)
    | _, _ => none

/-! ## The reassembly table (R35) -/

/-- The record of a frameID, if there is one (R35, R191). -/
def lookupFrame (f : Half) (table : List FrameAssembly) : Option FrameAssembly :=
  table.find? (fun A => A.frameID = f)

/-- The table with the record of `A`'s frameID replaced by `A`, at its place (R35: storing a segment
into an existing record does not move it). -/
def replaceFrame (A : FrameAssembly) (table : List FrameAssembly) : List FrameAssembly :=
  table.map (fun B => if B.frameID = A.frameID then A else B)

/-- The table without the record of `f` (R197). -/
def removeFrame (f : Half) (table : List FrameAssembly) : List FrameAssembly :=
  table.filter (fun A => A.frameID ≠ f)

/-- The store usage: the bytes held by every map of every record (R49). -/
def usage : List FrameAssembly → Nat
  | [] => 0
  | A :: rest => segmentBytes A.segments + usage rest

/-- Whether `n` bytes are within `STORE_CAP` (R49, R200). -/
def fits (cfg : Params) (n : Nat) : Bool :=
  match cfg.storeCap with
  | none => true
  | some cap => n ≤ cap

end Sys2Proof.Machine
end

