-- ==== Sys2Proof/Machine/Flags.lean ====
section
/-!
DEFINITION. The block has no condition codes (spec/10_state.md R39). Its flags are the sticky marks FAULT
and REFUSED (R41), and the state checks that raise FAULT (R33, R36, spec/60_exceptions.md R247).
-/

namespace Sys2Proof.Machine

/-- The deframer invariant R33 of BUF and MODE. -/
def deframerOk (buf : List Byte) (mode : Mode) : Bool :=
  match mode with
  | .awaitingHeader => buf.length ≤ 2
  | .awaitingPayload t len =>
    match buf with
    | b0 :: b1 :: b2 :: _ => b0 = t && be16 b1 b2 = len && buf.length ≤ len.toNat + 3
    | _ => false

/-- The record invariant R36: a total of at least 1, unique keys all below the total, and fewer of them
than the total. -/
def recordOk (A : FrameAssembly) : Bool :=
  1 ≤ A.totalSegments.toNat && decide (SegmentsWf A.segments) &&
    A.segments.all (fun e => e.1 < A.totalSegments) && A.segments.length < A.totalSegments.toNat

/-- The invariants whose failure R247 makes a fault: R33 and R36. -/
def State.consistent (s : State) : Bool := deframerOk s.buf s.mode && s.table.all recordOk

/-- The end of a step: a step that would end with an invariant false faults (R33, R247). -/
def endStep (o : Result) : Result :=
  match o with
  | .next t => if t.consistent then .next t else .fault .internalInvariant
  | .fault f => .fault f
  | .refused r => .refused r

/-- The state once an operation is over, whatever its outcome: a fault sets FAULT (R247) and a refusal
sets REFUSED (R248), nothing else of the block state changes, there is no response, and the operation is
no longer pending (log 6). A mark that is already set keeps its first reason (R41). -/
def settle (s : State) (o : Result) : State :=
  match o with
  | .next t => t
  | .fault f =>
    { s with faultMark := some (s.faultMark.getD f), response := .none, pending := s.pending.drop 1 }
  | .refused r =>
    { s with refusedMark := some (s.refusedMark.getD r), response := .none, pending := s.pending.drop 1 }

/-- What the host observes of the block: the last response and the status output (R38, R48). -/
def State.observe (s : State) : Response × Count := (s.response, s.discardCount)

end Sys2Proof.Machine
end

