-- ==== Sys2Proof/Machine/Ops.lean ====
section
/-!
DEFINITION. The shared operations: emitting an event (spec/00_scope.md R14), the buffer primitives
(spec/20_memory.md R67), storing a segment with completion and eviction (spec/42_reassembler.md R191 to
R200), routing a Data payload (spec/41_deframer.md R160), and the issue of one command. The block takes
no exception: it has no trap and no trap return (spec/60_exceptions.md R249, R250).
-/

namespace Sys2Proof.Machine

/-- Go on with `k` from a next state; a fault or a refusal ends the operation. -/
def andThen (o : Result) (k : State → Result) : Result :=
  match o with
  | .next s => k s
  | .fault f => .fault f
  | .refused r => .refused r

/-! ## Responses (R14, R45) -/

/-- The events of a response, in the order they were emitted. -/
def Response.eventList : Response → List Event
  | .events es => es
  | .none | .bytes _ | .message _ | .segment _ | .error _ => []

/-- An operation that answers events begins with none (R45). -/
def beginEvents (s : State) : State := { s with response := .events [] }

/-- `emit(e)`: append an event to the response of the current operation (R14). -/
def emit (e : Event) (s : State) : State :=
  { s with response := .events (Response.eventList s.response ++ [e]) }

/-- `return v` of an operation that answers one value (R14). -/
def respond (r : Response) (s : State) : State := { s with response := r }

/-! ## Buffer primitives (R67) -/

/-- `Append(chunk)` (R67, R151). -/
def appendBuf (chunk : List Byte) (s : State) : State := { s with buf := s.buf ++ chunk }

/-- `Take(n)`: the first `n` bytes of BUF and the state without them; a Take beyond BUF is an internal
invariant broken (R67). -/
def takeBuf (n : Nat) (s : State) : Except Fault (List Byte × State) :=
  if n ≤ s.buf.length then .ok (s.buf.take n, { s with buf := s.buf.drop n })
  else .error .internalInvariant

/-! ## The reassembly table -/

/-- Eviction (R198): a table of more than `MAX_FRAMES` records loses its oldest, and DISCARD_COUNT counts
it, modulo 2^32 (R252). No event (R245). -/
def evict (s : State) : State :=
  if s.table.length > s.cfg.maxFrames then
    { s with table := s.table.drop 1, discardCount := s.discardCount + 1 }
  else s

/-- The `totalSegments` that counts for a segment: the one recorded first, or the segment's own where
there is no record (R194, R195). -/
def effectiveTotal (g : Segment) (s : State) : Byte :=
  match lookupFrame g.frameID s.table with
  | some A => A.totalSegments
  | none => g.totalSegments

/-- The segment map of a segment's record before it is stored; empty where there is no record (R194). -/
def currentSegments (g : Segment) (s : State) : List (Byte × List Byte) :=
  match lookupFrame g.frameID s.table with
  | some A => A.segments
  | none => []

/-- The store usage once the segment's data stands in its slot, before any eviction (R200): the usage now,
less the data the slot holds, plus the new data. -/
def usageAfter (g : Segment) (s : State) : Nat :=
  usage s.table - ((slot g.segmentID (currentSegments g s)).getD []).length + g.data.length

/-- The record with the segment stored in it (R194 to R196). -/
def storedRecord (g : Segment) (s : State) : FrameAssembly :=
  { frameID := g.frameID
    totalSegments := effectiveTotal g s
    segments := storeSlot g.segmentID g.data (currentSegments g s) }

/-- An incomplete frame's record goes back to its place, or, newly created, to the end of the table, where
it may evict the oldest (R194, R198). -/
def keepRecord (g : Segment) (s : State) : State :=
  match lookupFrame g.frameID s.table with
  | some _ => { s with table := replaceFrame (storedRecord g s) s.table }
  | none => evict { s with table := s.table ++ [storedRecord g s] }

/-- A complete frame is emitted and its record is removed (R197). A missing slot is an index beyond a
sequence (R13). -/
def completeFrame (g : Segment) (s : State) : Result :=
  match gather (storedRecord g s).segments (storedRecord g s).totalSegments.toNat with
  | some payload =>
    .next (emit (.frame { frameID := g.frameID, payload := payload })
      { s with table := removeFrame g.frameID s.table })
  | none => .fault .internalInvariant

/-- ADD_SEGMENT of R191, its events appended to the open response. The checks stand in the order of R243:
R192, R193, R200. -/
def insertSegment (g : Segment) (s : State) : Result :=
  if ¬ g.segmentID < g.totalSegments then .next (emit (.err .invalidSegment) s)
  else if ¬ g.segmentID < effectiveTotal g s then .next (emit (.err .invalidSegment) s)
  else if ¬ fits s.cfg (usageAfter g s) then .refused .storeFull
  else if (storedRecord g s).segments.length = (storedRecord g s).totalSegments.toNat then
    completeFrame g s
  else .next (keepRecord g s)

/-- ROUTE of R160: a Data payload parsed and inserted, its error or its events appended. -/
def route (payload : List Byte) (s : State) : Result :=
  match parsePayload payload with
  | .ok g => insertSegment g s
  | .error e => .next (emit (.err e) s)

/-! ## Issuing a command (R95 to R97, R283) -/

/-- One step of the block under `run`, the meaning of the instructions. A faulted block takes no further
step (R247). With nothing pending the block does nothing (R290, log 3). Otherwise the host's first
pending command is issued: it is decoded, run, and no longer pending, and the step ends with the
invariant test of R33 and R247. -/
def issue (run : Instr → State → Result) (s : State) : Result :=
  match s.faultMark with
  | some f => .fault f
  | none =>
    match s.pending with
    | [] => .next s
    | c :: cs =>
      match decodeCommand c with
      | .ok i => endStep (run i { s with pending := cs })
      | .error .illegalOpcode => .refused .illegalCommand
      | .error .cutShort => .refused .notACommand
      | .error .bytesLeftOver => .refused .notACommand

/-- A command put before those that are pending. -/
def placeCommand (c : List Byte) (s : State) : State := { s with pending := c :: s.pending }

end Sys2Proof.Machine
end

