-- ==== Sys2Proof/Machine/Codec.lean ====
section
/-!
DEFINITION. The MessageCodec operations (spec/40_codec.md): ENCODE and DECODE. Both are pure: they read and
write no block state (spec/20_memory.md R66).
-/

namespace Sys2Proof.Machine

/-- ENCODE (R120): the serialized message, or a refusal where a precondition is violated (R248). -/
def execEncode (tc : Byte) (payload : List Byte) (s : State) : Result :=
  if ¬ recognized tc then .refused .unknownEncodeType
  else if payload.length > Config.lenMax then .refused .payloadTooLong
  else .next (respond (.bytes (serialize tc payload)) s)

/-- DECODE (R122): the Message, or the first error of R123. A Data message is not routed (R127). -/
def execDecode (bytes : List Byte) (s : State) : Result :=
  match decodeWire bytes with
  | .ok m => .next (respond (.message m) s)
  | .error e => .next (respond (.error e) s)

end Sys2Proof.Machine
end

