-- ==== Sys2Proof/Machine/Messages.lean ====
section
/-!
DEFINITION. The five wire message types (spec/40_codec.md R126 to R128): what the block does with a message
of each type once the deframer has accepted it. Each appends to the open response (log 12).
-/

namespace Sys2Proof.Machine

/-- MSG_CONTROL (R126): emitted as `msg(m)` like any other; the block neither stores nor applies an MTU. -/
def execMsgControl (payload : List Byte) (s : State) : Result :=
  .next (emit (.msg { type := .control, payload := payload }) s)

/-- MSG_DATA (R127, R156): emitted as `msg(m)`, then its payload is routed (R160). -/
def execMsgData (payload : List Byte) (s : State) : Result :=
  route payload (emit (.msg { type := .data, payload := payload }) s)

/-- MSG_ERROR (R128): emitted as `msg(m)`, never as `err(e)`, and nothing else. -/
def execMsgError (payload : List Byte) (s : State) : Result :=
  .next (emit (.msg { type := .error, payload := payload }) s)

/-- MSG_ACK (R128): emitted as `msg(m)` and nothing else. -/
def execMsgAck (payload : List Byte) (s : State) : Result :=
  .next (emit (.msg { type := .ack, payload := payload }) s)

/-- MSG_INFO (R128): emitted as `msg(m)` and nothing else. -/
def execMsgInfo (payload : List Byte) (s : State) : Result :=
  .next (emit (.msg { type := .info, payload := payload }) s)

/-- What FEED does with a message it has accepted: the meaning of the message's instruction. -/
def runMessage (m : Message) (s : State) : Result :=
  match m.type with
  | .control => execMsgControl m.payload s
  | .data => execMsgData m.payload s
  | .error => execMsgError m.payload s
  | .ack => execMsgAck m.payload s
  | .info => execMsgInfo m.payload s

end Sys2Proof.Machine
end

