-- ==== Sys2Proof/Machine/Deframer.lean ====
section
/-!
DEFINITION. The StreamDeframer operations (spec/41_deframer.md): the mode machine, FEED and FEED_BYTE.
-/

namespace Sys2Proof.Machine

/-- What FEED does with a candidate it has taken from BUF (R155 to R157, R161). -/
def runCandidate (c : List Byte) (s : State) : Result :=
  match decodeWire c with
  | .ok m => runMessage m s
  | .error .unknownType => .next (emit (.err .unknownType) s)
  | .error .checksumMismatch => .next (emit (.err .checksumMismatch) s)
  | .error .truncated => .fault .internalInvariant
  | .error .lengthMismatch => .fault .internalInvariant
  | .error .invalidSegment => .fault .internalInvariant
  | .error .incompleteFrameDiscarded => .fault .internalInvariant

/-- The extraction of one candidate of `n` bytes; MODE returns to `AwaitingHeader` whatever DECODE gives
(R155). -/
def extract (n : Nat) (s : State) : Result :=
  match takeBuf n s with
  | .ok (c, t) => runCandidate c { t with mode := .awaitingHeader }
  | .error f => .fault f

/-- One mode step (R153, R154, R155, R168): `none` where FEED's loop exits. -/
def modeStep (s : State) : Option Result :=
  match s.mode with
  | .awaitingHeader =>
    match s.buf with
    | b0 :: b1 :: b2 :: _ => some (.next { s with mode := .awaitingPayload b0 (be16 b1 b2) })
    | _ => none
  | .awaitingPayload _ len =>
    if s.buf.length < len.toNat + 4 then none else some (extract (len.toNat + 4) s)

/-- FEED's loop (R152), with a bound on its repetitions. Running into the bound would be a broken internal
invariant; no loop does (log 14). -/
def feedLoop : Nat → State → Result
  | 0, _ => .fault .internalInvariant
  | n + 1, s =>
    match modeStep s with
    | none => .next s
    | some o => andThen o (feedLoop n)

/-- A bound on the repetitions of FEED's loop: every second one consumes at least 4 bytes (R152). -/
def loopBound (s : State) : Nat := s.buf.length + 2

/-- FEED (R150): append the chunk, then extract every complete message. -/
def execFeed (chunk : List Byte) (s : State) : Result :=
  feedLoop (loopBound (appendBuf chunk (beginEvents s))) (appendBuf chunk (beginEvents s))

/-- FEED_BYTE (R162): FEED of a chunk of one byte. -/
def execFeedByte (b : Byte) (s : State) : Result := execFeed [b] s

end Sys2Proof.Machine
end

