-- ==== Sys2Proof/Machine/Lifecycle.lean ====
section
/-!
DEFINITION. The lifecycle operation (spec/43_lifecycle.md): RESET.
-/

namespace Sys2Proof.Machine

/-- RESET (R230): BUF, MODE, TABLE and DISCARD_COUNT to the values of R46; FAULT and REFUSED are not
written (R41); no response. -/
def execReset (s : State) : Result :=
  .next (respond .none
    { s with buf := [], mode := .awaitingHeader, table := [], discardCount := 0 })

end Sys2Proof.Machine
end

