-- ==== Sys2Proof/Machine/Reassembler.lean ====
section
/-!
DEFINITION. The SegmentReassembler operations (spec/42_reassembler.md): PARSE_SEGMENT and ADD_SEGMENT.
-/

namespace Sys2Proof.Machine

/-- PARSE_SEGMENT (R190): pure; the Segment, or InvalidSegment for a payload under 4 bytes. -/
def execParseSegment (payload : List Byte) (s : State) : Result :=
  match parsePayload payload with
  | .ok g => .next (respond (.segment g) s)
  | .error e => .next (respond (.error e) s)

/-- ADD_SEGMENT (R191). -/
def execAddSegment (frameID : Half) (segmentID totalSegments : Byte) (data : List Byte) (s : State) :
    Result :=
  insertSegment
    { frameID := frameID, segmentID := segmentID, totalSegments := totalSegments, data := data }
    (beginEvents s)

end Sys2Proof.Machine
end

