-- ==== Sys2Proof/Machine/Dispatch.lean ====
section
/-!
DEFINITION. The dispatch: one arm per constructor of Instr.
-/

namespace Sys2Proof.Machine

def exec (i : Instr) (s : State) : Host.Outcome State Fault Refusal :=
  match i with
  | .encode tc payload => Sys2Proof.Machine.execEncode tc payload s
  | .decode bytes => Sys2Proof.Machine.execDecode bytes s
  | .feed chunk => Sys2Proof.Machine.execFeed chunk s
  | .feedByte b => Sys2Proof.Machine.execFeedByte b s
  | .parseSegment payload => Sys2Proof.Machine.execParseSegment payload s
  | .addSegment f k t data => Sys2Proof.Machine.execAddSegment f k t data s
  | .reset => Sys2Proof.Machine.execReset s
  | .msgControl payload => Sys2Proof.Machine.execMsgControl payload s
  | .msgData payload => Sys2Proof.Machine.execMsgData payload s
  | .msgError payload => Sys2Proof.Machine.execMsgError payload s
  | .msgAck payload => Sys2Proof.Machine.execMsgAck payload s
  | .msgInfo payload => Sys2Proof.Machine.execMsgInfo payload s

end Sys2Proof.Machine
end

