-- ==== Sys2Proof/Machine/Step.lean ====
section
/-!
DEFINITION. One step of the block: the issue of the host's first pending command (spec/00_scope.md R8), and
the state after it whatever its outcome.
-/

namespace Sys2Proof.Machine

/-- One step: one atomic operation (R8). -/
def step (s : State) : Host.Outcome State Fault Refusal := issue exec s

/-- The state after one step, with the mark a fault or a refusal sets (R41, R247, R248). -/
def advance (s : State) : State := settle s (step s)

/-- The host issues the command an opcode-table word spells, before those that are pending (log 19). -/
def State.withFetchWord (s : State) (nbits w : Nat) : State := placeCommand (tableCommand nbits w) s

end Sys2Proof.Machine
end

