-- ==== Sys2Proof/Machine/Assembler.lean ====
section
/-!
DEFINITION. The assembler syntax and the pseudo-operations (spec/30_encoding.md R99, R100). A line of a
test program denotes the operations it is read as; a program runs by having their commands pending.
-/

namespace Sys2Proof.Machine

/-! ## Pseudo-operations (R100) -/

/-- `SEND_MTU v` (R100): ENCODE of a Control message with the MTU as its payload. -/
def sendMtu (v : Half) : List Instr := [.encode (MsgType.code .control) (be16Bytes v)]

/-- `SEND_SEGMENT f, k, t, [d...]` (R100): ENCODE of a Data message in the segment format of R86. -/
def sendSegment (f : Half) (k t : Byte) (d : List Byte) : List Instr :=
  [.encode (MsgType.code .data) (be16Bytes f ++ k :: t :: d)]

/-- `FEED_EACH [b0, ..., bn-1]` (R100): one FEED_BYTE for each byte. -/
def feedEach (bs : List Byte) : List Instr := bs.map Instr.feedByte

/-! ## Tokens -/

/-- A token of a line: a word or number, or a punctuation mark. -/
inductive Token where
  | word (cs : List Char)
  | comma
  | opening
  | closing
  deriving DecidableEq, Repr

/-- A word that has been read, unless it is empty. -/
def wordToken (cs : List Char) : List Token := if cs = [] then [] else [.word cs]

/-- The tokens of a line; `acc` is the word being read. Spaces separate words (log 18). -/
def tokens : List Char → List Char → List Token
  | acc, [] => wordToken acc
  | acc, c :: cs =>
    if c = ' ' then wordToken acc ++ tokens [] cs
    else if c = ',' then wordToken acc ++ .comma :: tokens [] cs
    else if c = '[' then wordToken acc ++ .opening :: tokens [] cs
    else if c = ']' then wordToken acc ++ .closing :: tokens [] cs
    else tokens (acc ++ [c]) cs

/-! ## Numbers (hexadecimal `0xNN` or decimal, R99) -/

/-- The value of a digit of a base of at most 16. -/
def digitValue (c : Char) : Option Nat :=
  if '0' ≤ c ∧ c ≤ '9' then some (c.toNat - '0'.toNat)
  else if 'a' ≤ c ∧ c ≤ 'f' then some (c.toNat - 'a'.toNat + 10)
  else if 'A' ≤ c ∧ c ≤ 'F' then some (c.toNat - 'A'.toNat + 10)
  else none

/-- The value of digits of a base, after the value `acc` of those before them. -/
def digitsValue (base : Nat) : Nat → List Char → Option Nat
  | acc, [] => some acc
  | acc, c :: cs =>
    match digitValue c with
    | some d => if d < base then digitsValue base (acc * base + d) cs else none
    | none => none

/-- The value of a number as it is written. -/
def numberValue : List Char → Option Nat
  | '0' :: 'x' :: c :: cs => digitsValue 16 0 (c :: cs)
  | c :: cs => digitsValue 10 0 (c :: cs)
  | [] => none

/-- A number that fits in `w` bits. -/
def number (w : Nat) (cs : List Char) : Option (BitVec w) :=
  match numberValue cs with
  | some n => if n < 2 ^ w then some (BitVec.ofNat w n) else none
  | none => none

/-! ## Lines (R99) -/

/-- The rest of a byte list after its first byte: `, b, b, ... ]`, with nothing after it. -/
def moreBytes : List Token → Option (List Byte)
  | [.closing] => some []
  | .comma :: .word cs :: ts =>
    match number 8 cs, moreBytes ts with
    | some b, some bs => some (b :: bs)
    | _, _ => none
  | _ => none

/-- A byte list `[b0, b1, ...]`, possibly empty, with nothing after it (R99). -/
def byteList : List Token → Option (List Byte)
  | [.opening, .closing] => some []
  | .opening :: .word cs :: ts =>
    match number 8 cs, moreBytes ts with
    | some b, some bs => some (b :: bs)
    | _, _ => none
  | _ => none

/-- The message type a `<Type>` operand names (R99). -/
def typeNamed (cs : List Char) : Option MsgType :=
  if cs = "Control".toList then some .control
  else if cs = "Data".toList then some .data
  else if cs = "Error".toList then some .error
  else if cs = "Ack".toList then some .ack
  else if cs = "Info".toList then some .info
  else none

/-- The operands `f, k, t, [d...]` of ADD_SEGMENT and SEND_SEGMENT (R99, R100). -/
def segmentOperands : List Token → Option Segment
  | .word f :: .comma :: .word k :: .comma :: .word t :: .comma :: ts =>
    match number 16 f, number 8 k, number 8 t, byteList ts with
    | some f, some k, some t, some d =>
      some { frameID := f, segmentID := k, totalSegments := t, data := d }
    | _, _, _, _ => none
  | _ => none

/-- The operations of a line's mnemonic and operand tokens (R99, R100). -/
def lineOperations (m : List Char) (ts : List Token) : Option (List Instr) :=
  if m = "ENCODE".toList then
    match ts with
    | .word ty :: .comma :: bs =>
      match typeNamed ty, byteList bs with
      | some t, some p => some [.encode t.code p]
      | _, _ => none
    | _ => none
  else if m = "DECODE".toList then (byteList ts).map fun bs => [.decode bs]
  else if m = "FEED".toList then (byteList ts).map fun bs => [.feed bs]
  else if m = "FEED_BYTE".toList then
    match ts with
    | [.word b] => (number 8 b).map fun b => [.feedByte b]
    | _ => none
  else if m = "PARSE_SEGMENT".toList then (byteList ts).map fun bs => [.parseSegment bs]
  else if m = "ADD_SEGMENT".toList then
    (segmentOperands ts).map fun g => [.addSegment g.frameID g.segmentID g.totalSegments g.data]
  else if m = "RESET".toList then if ts = [] then some [.reset] else none
  else if m = "SEND_MTU".toList then
    match ts with
    | [.word v] => (number 16 v).map sendMtu
    | _ => none
  else if m = "SEND_SEGMENT".toList then
    (segmentOperands ts).map fun g => sendSegment g.frameID g.segmentID g.totalSegments g.data
  else if m = "FEED_EACH".toList then (byteList ts).map feedEach
  else none

/-- The operations a line of a test program denotes (R99, R100). -/
def readLine (line : String) : Option (List Instr) :=
  match tokens [] line.toList with
  | .word m :: ts => lineOperations m ts
  | _ => none

/-- The operations of a program, one line after the other. -/
def readProgram : List String → Option (List Instr)
  | [] => some []
  | line :: lines =>
    match readLine line, readProgram lines with
    | some is, some js => some (is ++ js)
    | _, _ => none

/-- The host sets out to issue the given operations, after those that are pending. -/
def issueAll (is : List Instr) (s : State) : State :=
  { s with pending := s.pending ++ is.map encode }

end Sys2Proof.Machine
end

