-- ==== Sys2Proof/Machine/Responses.lean ====
section
/-!
DEFINITION. The byte spelling of responses and events (spec/30_encoding.md R98) and the code bytes of the
error kinds (spec/60_exceptions.md R240).
-/

namespace Sys2Proof.Machine

/-- The code byte of an error kind (R240, D5). -/
def errorCode : ErrorKind → Byte
  | .truncated => 0x01
  | .unknownType => 0x02
  | .lengthMismatch => 0x03
  | .checksumMismatch => 0x04
  | .invalidSegment => 0x05
  | .incompleteFrameDiscarded => 0x06

/-- The bytes of an event (R98). -/
def spellEvent : Event → List Byte
  | .msg m => 0x01 :: m.wire
  | .err e => [0x02, errorCode e]
  | .frame f => 0x03 :: be16Bytes f.frameID ++ be32Bytes f.payload.length ++ f.payload

/-- The bytes of a list of events, one after the other. -/
def spellEvents : List Event → List Byte
  | [] => []
  | e :: es => spellEvent e ++ spellEvents es

/-- The bytes of a response (R98). A failed DECODE or PARSE_SEGMENT is spelled as its `err` event, and
no response is no bytes (log 17). -/
def spellResponse : Response → List Byte
  | .none => []
  | .bytes bs => be32Bytes bs.length ++ bs
  | .message m => spellEvent (.msg m)
  | .segment g =>
    0x04 :: be16Bytes g.frameID ++ g.segmentID :: g.totalSegments ::
      be16Bytes (BitVec.ofNat 16 g.data.length) ++ g.data
  | .error e => spellEvent (.err e)
  | .events es => spellEvents es

end Sys2Proof.Machine
end

