-- ==== Sys2Proof/Machine/Runs.lean ====
section
/-!
DEFINITION. Sequences of operations (spec/20_memory.md R68) and several instances of the block (R74).
-/

namespace Sys2Proof.Machine

/-- Perform operations in order, and answer their events concatenated (R163: "the same concatenated event
list"). It ends at the first fault or refusal. -/
def performAll : List Instr → State → Result
  | [], s => .next (beginEvents s)
  | i :: is, s =>
    andThen (exec i s) fun t =>
      andThen (performAll is t) fun u =>
        .next (respond (.events (Response.eventList t.response ++ Response.eventList u.response)) u)

/-- One step of the `n`-th of several instances: the others are not touched (R74). -/
def stepInstance (n : Nat) (instances : List State) : Host.Outcome (List State) Fault Refusal :=
  match instances[n]? with
  | none => .next instances
  | some s =>
    match step s with
    | .next t => .next (instances.set n t)
    | .fault f => .fault f
    | .refused r => .refused r

end Sys2Proof.Machine
end

