-- ==== Sys2Proof/Safety.lean ====
section
/-!
DEFINITION. What the spec promises of every state between operations, and the events, evictions and runs
of segments in whose terms claims are stated.
-/

namespace Sys2Proof.Machine

/-- What holds of TABLE between operations: R36 of every record, at most one record for each frameID (R35),
at most MAX_FRAMES records (R37), the store within STORE_CAP (R49), and MAX_FRAMES at least 1 (R10). -/
structure State.TableInv (s : State) : Prop where
  records  : ∀ A ∈ s.table, recordOk A = true
  unique   : (s.table.map FrameAssembly.frameID).Nodup
  bounded  : s.table.length ≤ s.cfg.maxFrames
  stored   : fits s.cfg (usage s.table) = true
  tracks   : 1 ≤ s.cfg.maxFrames

/-- What holds between operations: R33 of BUF and MODE, and the invariants of TABLE. -/
structure State.Inv (s : State) : Prop extends State.TableInv s where
  deframer : deframerOk s.buf s.mode = true

/-- A run ends cleanly when FAULT and REFUSED are clear (R290). -/
def State.Clean (s : State) : Prop := s.faultMark = none ∧ s.refusedMark = none

/-- A framed candidate: as many bytes as its own header declares (R155, R166). -/
def Framed (c : List Byte) : Prop :=
  ∃ b0 b1 b2 rest, c = b0 :: b1 :: b2 :: rest ∧ c.length = (be16 b1 b2).toNat + 4

/-- The events FEED emits for a candidate (R156, R157, R159, R160): the error of a bad one; the message of
a good one, followed, for Data, by at most one event of ROUTE. -/
inductive CandidateEvents : List Byte → List Event → Prop where
  | bad (c : List Byte) (e : ErrorKind) (he : decodeWire c = .error e)
      (hk : e = .unknownType ∨ e = .checksumMismatch) : CandidateEvents c [.err e]
  | good (c : List Byte) (m : Message) (hm : decodeWire c = .ok m) : CandidateEvents c [.msg m]
  | rejected (c : List Byte) (m : Message) (hm : decodeWire c = .ok m) (hd : m.type = .data) :
      CandidateEvents c [.msg m, .err .invalidSegment]
  | completed (c : List Byte) (m : Message) (g : Segment) (f : ReassembledFrame)
      (hm : decodeWire c = .ok m) (hd : m.type = .data) (hg : parsePayload m.payload = .ok g)
      (hf : f.frameID = g.frameID) : CandidateEvents c [.msg m, .frame f]

/-! ## Evictions (R198, R245, R252) -/

/-- What one offered segment does to TABLE, `none` for a Data payload that carries no segment, and whether it
evicts. -/
inductive TableLink (maxFrames : Nat) : List FrameAssembly → Option Segment → Bool → List FrameAssembly → Prop where
  /-- No segment to add: TABLE is unchanged (R190, R160). -/
  | nothing (T : List FrameAssembly) : TableLink maxFrames T none false T
  /-- No eviction: at most the record of the segment's own frame changes, TABLE does not grow beyond MAX_FRAMES,
  and that record goes only when the segment makes it complete (R191, R197, R198). -/
  | own {T U : List FrameAssembly} {g : Segment}
      (others : U.filter (fun B => B.frameID ≠ g.frameID) = T.filter (fun B => B.frameID ≠ g.frameID))
      (bounded : T.length < U.length → U.length ≤ maxFrames)
      (removed : ∀ A, lookupFrame g.frameID T = some A → lookupFrame g.frameID U = none →
        (storeSlot g.segmentID g.data A.segments).length = A.totalSegments.toNat) :
      TableLink maxFrames T (some g) false U
  /-- An eviction: the segment's frame has no record in a full TABLE; the oldest record is removed, and the
  segment's new record stands at the end (R194, R198). -/
  | evicting {B : FrameAssembly} {R : List FrameAssembly} {g : Segment} (full : maxFrames ≤ (B :: R).length)
      (fresh : lookupFrame g.frameID (B :: R) = none) :
      TableLink maxFrames (B :: R) (some g) true
        (R ++ [{ frameID := g.frameID, totalSegments := g.totalSegments, segments := [(g.segmentID, g.data)] }])

/-- What several offered segments do to TABLE, one after the other, `true` for each that evicts. -/
inductive TableRun (maxFrames : Nat) :
    List FrameAssembly → List (Option Segment) → List Bool → List FrameAssembly → Prop where
  | done (T : List FrameAssembly) : TableRun maxFrames T [] [] T
  | link {T U V : List FrameAssembly} {g : Option Segment} {gs : List (Option Segment)} {b : Bool}
      {bs : List Bool} (h : TableLink maxFrames T g b U) (r : TableRun maxFrames U gs bs V) :
      TableRun maxFrames T (g :: gs) (b :: bs) V

/-- The segment a Data payload carries, if it carries one (R160, R190). -/
def carriedSegment (payload : List Byte) : Option Segment := (parsePayload payload).toOption

/-- The segments of the Data messages among the events of a response, in their order. -/
def dataSegments : List Event → List (Option Segment)
  | [] => []
  | .msg m :: es => if m.type = .data then carriedSegment m.payload :: dataSegments es else dataSegments es
  | .err _ :: es => dataSegments es
  | .frame _ :: es => dataSegments es

/-- The segments an instruction offers to the reassembler when it answers a response: ADD_SEGMENT its
operands, a Data message that of its payload, FEED that of each Data message it emits (R160, R191). -/
def segmentsOffered (i : Instr) (r : Response) : List (Option Segment) :=
  match i with
  | .addSegment f k t d => [some { frameID := f, segmentID := k, totalSegments := t, data := d }]
  | .msgData p => [carriedSegment p]
  | .feed _ | .feedByte _ => dataSegments (Response.eventList r)
  | .encode .. | .decode _ | .parseSegment _ | .reset | .msgControl _ | .msgError _ | .msgAck _
  | .msgInfo _ => []

/-! ## The segments of one frame with other operations in between (R199) -/

/-- Operations after which the record of `f` is as it was before them: it is not evicted in between. -/
def Between (f : Half) (s t : State) : Prop :=
  ∃ is, performAll is s = .next t ∧ lookupFrame f t.table = lookupFrame f s.table

/-- ADD_SEGMENT for segments of the frame `f` of data `ds`, with other operations before, between and after
them; each segment's number with the response to it. -/
inductive SegmentsAdded (f : Half) (ds : List (List Byte)) : State → List (Nat × Response) → State → Prop where
  | done {s t : State} (h : Between f s t) : SegmentsAdded f ds s [] t
  | add {s u v t : State} {n : Nat} {rs : List (Nat × Response)} (h : Between f s u)
      (he : exec (.addSegment f (BitVec.ofNat 8 n) (BitVec.ofNat 8 ds.length) (ds.getD n [])) u = .next v)
      (r : SegmentsAdded f ds v rs t) : SegmentsAdded f ds s ((n, v.response) :: rs) t

end Sys2Proof.Machine
end

