-- ==== Sys2Proof/Certificates/Slice0/Obligations.lean ====
section
/-!
DEFINITION. The statements for the provers. Each docstring names the rules of spec/ it formalises.
-/

open Sys2Proof Sys2Proof.Machine

/-! ## Encodings -/

/-- R95, R96: reading a command's bytes gives the command back, for every well-formed command and every
operand its encoding admits. -/
def Obligations.CommandRoundTrip : Prop :=
  ∀ i : Instr, i.wellFormed = true → i.space = .command → decodeCommand (encode i) = .ok i

/-- R96, R283: every byte sequence that is a command is the encoding of that one command. -/
def Obligations.CommandBytesHaveOneMeaning : Prop :=
  ∀ (bs : List Byte) (i : Instr), decodeCommand bs = .ok i →
    i.wellFormed = true ∧ i.space = .command ∧ encode i = bs

/-- R80, R82, R126 to R128: reading a wire message's bytes gives its instruction back. -/
def Obligations.WireMessageRoundTrip : Prop :=
  ∀ i : Instr, i.wellFormed = true → i.space = .wire → decodeMessage (encode i) = .ok i

/-- R80, R122: every byte sequence that DECODE accepts is the wire form of the message it answers. -/
def Obligations.WireBytesHaveOneMeaning : Prop :=
  ∀ (bs : List Byte) (m : Message), decodeWire bs = .ok m →
    m.instr.wellFormed = true ∧ m.instr.space = .wire ∧ encode m.instr = bs ∧
      bs.length = m.payload.length + 4

/-- R81: the checksum byte is the XOR of every byte before it; the fold of a whole correctly checksummed
message is 0. -/
def Obligations.ChecksumIsXorOfEveryByteBefore : Prop :=
  (∀ (tc : Byte) (p : List Byte), p.length ≤ 65535 →
    (serialize tc p).length = p.length + 4 ∧
    (serialize tc p)[p.length + 3]? = some (xorfold ((serialize tc p).take (p.length + 3))) ∧
    xorfold ((serialize tc p).take (p.length + 3)) =
      tc ^^^ BitVec.ofNat 8 (p.length / 256) ^^^ BitVec.ofNat 8 p.length ^^^ xorfold p ∧
    xorfold (serialize tc p) = 0) ∧
  ∀ (bs : List Byte) (m : Message), decodeWire bs = .ok m → xorfold bs = 0

/-- R124: the fold of nothing is 0, of one byte that byte, of a concatenation the XOR of the folds, and the
order of the bytes does not matter. -/
def Obligations.XorfoldIgnoresByteOrder : Prop :=
  xorfold [] = 0 ∧ (∀ b : Byte, xorfold [b] = b) ∧
  (∀ s t : List Byte, xorfold (s ++ t) = xorfold s ^^^ xorfold t) ∧
  ∀ s t : List Byte, s.Perm t → xorfold s = xorfold t

/-- R82, R130: the type codes, `recognized`, and that `type_of` undoes `code`. -/
def Obligations.MessageTypeCodes : Prop :=
  (MsgType.code .control = 0x01 ∧ MsgType.code .data = 0x02 ∧ MsgType.code .error = 0x03 ∧
    MsgType.code .ack = 0x04 ∧ MsgType.code .info = 0x05) ∧
  (∀ b : Byte, recognized b = true ↔ b ∈ [(0x01 : Byte), 0x02, 0x03, 0x04, 0x05]) ∧
  (∀ t : MsgType, typeOf t.code = some t) ∧
  ∀ (b : Byte) (t : MsgType), typeOf b = some t → t.code = b

/-- R95, R96, R80: words written out from the layouts decode to the instructions they stand for (the
command bytes of spec/95_test_vectors.md, programs P1 to P4, and its DECODE rows). -/
def Obligations.WrittenOutWordsDecode : Prop :=
  decodeCommand [0x01, 0x01, 0x00, 0x02, 0x02, 0x00] = .ok (.encode 0x01 [0x02, 0x00]) ∧
  decodeCommand [0x02, 0x00, 0x00, 0x00, 0x02, 0x01, 0x00] = .ok (.decode [0x01, 0x00]) ∧
  decodeCommand [0x03, 0x00, 0x00, 0x00, 0x02, 0x00, 0x06] = .ok (.feed [0x00, 0x06]) ∧
  decodeCommand [0x04, 0x02] = .ok (.feedByte 0x02) ∧
  decodeCommand [0x05, 0x00, 0x04, 0x00, 0x01, 0x01, 0x02] =
    .ok (.parseSegment [0x00, 0x01, 0x01, 0x02]) ∧
  decodeCommand [0x06, 0x00, 0x09, 0x01, 0x02, 0x00, 0x01, 0xAD] = .ok (.addSegment 9 1 2 [0xAD]) ∧
  decodeCommand [0x07] = .ok .reset ∧
  decodeMessage [0x01, 0x00, 0x02, 0x02, 0x00, 0x01] = .ok (.msgControl [0x02, 0x00]) ∧
  decodeMessage [0x02, 0x00, 0x05, 0x00, 0x01, 0x00, 0x02, 0xA0, 0xA4] =
    .ok (.msgData [0x00, 0x01, 0x00, 0x02, 0xA0]) ∧
  decodeMessage [0x03, 0x00, 0x03, 0x10, 0x20, 0x30, 0x00] = .ok (.msgError [0x10, 0x20, 0x30]) ∧
  decodeMessage [0x04, 0x00, 0x00, 0x04] = .ok (.msgAck []) ∧
  decodeMessage [0x05, 0x00, 0x01, 0xFF, 0xFB] = .ok (.msgInfo [0xFF])

/-- R97: opcode bytes 0x00 and 0x08 to 0xFF spell no operation; the step is refused as IllegalCommand, the
REFUSED mark, if clear, records it, and no step is performed. -/
def Obligations.IllegalOpcodesAreRefused : Prop :=
  ∀ (s : State) (op : Byte) (rest : List Byte) (cs : List (List Byte)),
    s.faultMark = none → s.pending = (op :: rest) :: cs → (op = 0x00 ∨ 0x08 ≤ op.toNat) →
    step s = .refused .illegalCommand ∧
    (s.refusedMark = none → (advance s).refusedMark = some .illegalCommand) ∧
    (advance s).refusedMark ≠ none ∧
    (advance s).buf = s.buf ∧ (advance s).mode = s.mode ∧ (advance s).table = s.table ∧
    (advance s).discardCount = s.discardCount ∧ (advance s).faultMark = s.faultMark

/-- R283: a command cut short, or with bytes left over, is no command. That such a step is refused, and
the name of the refusal, are the model's choice (log 9). -/
def Obligations.MalformedCommandsAreRefused : Prop :=
  ∀ (s : State) (i : Instr) (c x : List Byte) (cs : List (List Byte)),
    i.wellFormed = true → i.space = .command → s.faultMark = none → x ≠ [] →
    (c ++ x = encode i → s.pending = c :: cs → step s = .refused .notACommand) ∧
    (c = encode i ++ x → s.pending = c :: cs → step s = .refused .notACommand)

/-- R86, R87, R100: what the pseudo-operations SEND_MTU and SEND_SEGMENT build is read back by the peer
as the MTU and as the segment. -/
def Obligations.PseudoOperationsAreReadBack : Prop :=
  (∀ (v : Half) (s : State), ∃ out m,
    (∀ i ∈ sendMtu v, exec i s = .next { s with response := .bytes out }) ∧
    decodeWire out = .ok m ∧ m.type = .control ∧ mtuOf m = some v) ∧
  ∀ (f : Half) (k t : Byte) (d : List Byte) (s : State), d.length ≤ 65531 → ∃ out m,
    (∀ i ∈ sendSegment f k t d, exec i s = .next { s with response := .bytes out }) ∧
    decodeWire out = .ok m ∧ m.type = .data ∧
    parsePayload m.payload =
      .ok { frameID := f, segmentID := k, totalSegments := t, data := d }

/-- R98: the byte spelling of a list of events determines it, for messages and frames whose lengths their
count fields hold. That a list is spelled as its events one after the other is the model's reading (log 17). -/
def Obligations.EventSpellingIsUnambiguous : Prop :=
  ∀ es fs : List Event,
    (∀ e ∈ es ++ fs, match e with
      | .msg m => m.payload.length ≤ 65535
      | .err _ => True
      | .frame f => f.payload.length < 2 ^ 32) →
    spellEvents es = spellEvents fs → es = fs

/-! ## MessageCodec -/

/-- R120: ENCODE answers the serialized message and changes nothing else; an unrecognized type byte and a
payload over 65535 bytes are refused, in this order. What it answers passes DECODE. -/
def Obligations.EncodeSerializes : Prop :=
  ∀ (tc : Byte) (p : List Byte) (s : State),
    (tc ∈ [(0x01 : Byte), 0x02, 0x03, 0x04, 0x05] → p.length ≤ 65535 → ∃ body m,
      body = tc :: BitVec.ofNat 8 (p.length / 256) :: BitVec.ofNat 8 p.length :: p ∧
      exec (.encode tc p) s = .next { s with response := .bytes (body ++ [xorfold body]) } ∧
      (body ++ [xorfold body]).length = p.length + 4 ∧
      decodeWire (body ++ [xorfold body]) = .ok m) ∧
    (tc ∉ [(0x01 : Byte), 0x02, 0x03, 0x04, 0x05] →
      exec (.encode tc p) s = .refused .unknownEncodeType) ∧
    (tc ∈ [(0x01 : Byte), 0x02, 0x03, 0x04, 0x05] → 65535 < p.length →
      exec (.encode tc p) s = .refused .payloadTooLong)

/-- R122, R123: DECODE always answers, changes nothing else, and reports the first failure in the order
Truncated, UnknownType, LengthMismatch, ChecksumMismatch, or the message. -/
def Obligations.DecodeReportsFirstFailure : Prop :=
  ∀ (bs : List Byte) (s : State) (len : Nat),
    len = (bs.getD 1 0).toNat * 256 + (bs.getD 2 0).toNat →
    ∃ r, exec (.decode bs) s = .next { s with response := r } ∧
      (bs.length < 4 → r = .error .truncated) ∧
      (4 ≤ bs.length → bs.getD 0 0 ∉ [(0x01 : Byte), 0x02, 0x03, 0x04, 0x05] →
        r = .error .unknownType) ∧
      (4 ≤ bs.length → bs.getD 0 0 ∈ [(0x01 : Byte), 0x02, 0x03, 0x04, 0x05] →
        (bs.length ≠ len + 4 → r = .error .lengthMismatch) ∧
        (bs.length = len + 4 →
          xorfold (bs.take (bs.length - 1)) ≠ bs.getD (bs.length - 1) 0 →
            r = .error .checksumMismatch) ∧
        (bs.length = len + 4 →
          xorfold (bs.take (bs.length - 1)) = bs.getD (bs.length - 1) 0 →
            ∃ m, r = .message m ∧ m.type.code = bs.getD 0 0 ∧ m.length.toNat = len ∧
              m.payload = (bs.drop 3).take len ∧ m.checksum = bs.getD (3 + len) 0))

/-- R129: DECODE of what ENCODE answers is the message that was encoded. -/
def Obligations.DecodeOfEncodeIsTheMessage : Prop :=
  ∀ (t : MsgType) (p : List Byte) (s : State), p.length ≤ 65535 → ∃ out m,
    exec (.encode t.code p) s = .next { s with response := .bytes out } ∧
    exec (.decode out) s = .next { s with response := .message m } ∧
    m.type = t ∧ m.length.toNat = p.length ∧ m.payload = p ∧
    m.checksum = xorfold ([t.code] ++ be16Bytes (BitVec.ofNat 16 p.length) ++ p)

/-- R125: every single flipped bit of an accepted message is detected, by the error the table gives for
the byte it falls in; two flips at the same bit of two bytes of offset 3 or more are not, and give a
different message. -/
def Obligations.BitFlipsAreReportedByOffset : Prop :=
  ∀ (bs : List Byte) (m : Message) (s : State) (j i : Nat), decodeWire bs = .ok m →
    j < bs.length → i < 8 → ∀ flipped, flipped = bs.set j (bs.getD j 0 ^^^ (1 : Byte) <<< i) →
    (3 ≤ j → exec (.decode flipped) s = .next { s with response := .error .checksumMismatch }) ∧
    (j = 1 ∨ j = 2 → exec (.decode flipped) s = .next { s with response := .error .lengthMismatch }) ∧
    (j = 0 → flipped.getD 0 0 ∉ [(0x01 : Byte), 0x02, 0x03, 0x04, 0x05] →
      exec (.decode flipped) s = .next { s with response := .error .unknownType }) ∧
    (j = 0 → flipped.getD 0 0 ∈ [(0x01 : Byte), 0x02, 0x03, 0x04, 0x05] →
      exec (.decode flipped) s = .next { s with response := .error .checksumMismatch }) ∧
    (∀ k, 3 ≤ j → 3 ≤ k → k ≠ j → k < bs.length → ∃ m',
      exec (.decode (flipped.set k (flipped.getD k 0 ^^^ (1 : Byte) <<< i))) s =
        .next { s with response := .message m' } ∧ m' ≠ m)

/-- R66: ENCODE, DECODE and PARSE_SEGMENT read and write no state: their response, or their refusal, is the
same from every state, and only the response field is written. -/
def Obligations.PureOperationsTouchNoState : Prop :=
  ∀ i : Instr, (∃ tc p, i = .encode tc p) ∨ (∃ bs, i = .decode bs) ∨ (∃ p, i = .parseSegment p) →
    (∃ r, ∀ s, exec i s = .next { s with response := r }) ∨ ∃ r, ∀ s, exec i s = .refused r

/-! ## Wire messages -/

/-- R126, R128: a Control, Error, Ack or Info message is emitted as `msg(m)` and nothing else happens. That
it is appended to the open response is how the model runs it inside a FEED (log 12). -/
def Obligations.PlainMessagesAreOnlyEmitted : Prop :=
  ∀ (p : List Byte) (s : State) (es : List Event), s.response = .events es →
    exec (.msgControl p) s = .next { s with response := .events (es ++ [.msg ⟨.control, p⟩]) } ∧
    exec (.msgError p) s = .next { s with response := .events (es ++ [.msg ⟨.error, p⟩]) } ∧
    exec (.msgAck p) s = .next { s with response := .events (es ++ [.msg ⟨.ack, p⟩]) } ∧
    exec (.msgInfo p) s = .next { s with response := .events (es ++ [.msg ⟨.info, p⟩]) }

/-- R127, R160: a Data message is emitted and then routed: a payload under 4 bytes gives InvalidSegment,
any other is added as the segment it carries, with ADD_SEGMENT's effect and events. The open response is
log 12, the refusal of the whole is log 13. -/
def Obligations.DataMessagesAreRouted : Prop :=
  ∀ (p : List Byte) (s : State) (es : List Event), s.response = .events es →
    (p.length < 4 → exec (.msgData p) s =
      .next { s with response := .events (es ++ [.msg ⟨.data, p⟩, .err .invalidSegment]) }) ∧
    ∀ (f1 f0 k t : Byte) (d : List Byte) (f : Half), p = f1 :: f0 :: k :: t :: d →
      f.toNat = f1.toNat * 256 + f0.toNat →
      (∀ u, exec (.addSegment f k t d) s = .next u → ∃ fs, u.response = .events fs ∧
        exec (.msgData p) s =
          .next { u with response := .events (es ++ .msg ⟨.data, p⟩ :: fs) }) ∧
      (∀ r, exec (.addSegment f k t d) s = .refused r → exec (.msgData p) s = .refused r)

/-- R127, R160: where the store has room for its bytes, a Data message completes, with its `msg` event
and at most one event of ROUTE, and leaves BUF and MODE alone. -/
def Obligations.DataMessagesComplete : Prop :=
  ∀ (p : List Byte) (s : State) (es : List Event), s.TableInv → s.response = .events es →
    fits s.cfg (usage s.table + p.length) = true →
    ∃ t fs, exec (.msgData p) s = .next t ∧
      t.response = .events (es ++ .msg ⟨.data, p⟩ :: fs) ∧ fs.length ≤ 1 ∧
      t.buf = s.buf ∧ t.mode = s.mode ∧ t.cfg = s.cfg ∧ t.pending = s.pending ∧
      t.faultMark = s.faultMark ∧ t.refusedMark = s.refusedMark ∧ t.TableInv

/-! ## StreamDeframer -/

/-- R150, R162, R167: FEED and FEED_BYTE complete from every state between operations where the store has
room for the bytes: they never block and never fault. -/
def Obligations.FeedCompletes : Prop :=
  ∀ (c : List Byte) (s : State), s.Inv →
    fits s.cfg (usage s.table + s.buf.length + c.length) = true →
    (∃ t es, exec (.feed c) s = .next t ∧ t.response = .events es ∧ t.Inv ∧ t.cfg = s.cfg ∧
      t.pending = s.pending ∧ t.faultMark = s.faultMark ∧ t.refusedMark = s.refusedMark) ∧
    ∀ b, c = [b] → ∃ t es, exec (.feedByte b) s = .next t ∧ t.response = .events es ∧ t.Inv

/-- R159 (and R69, R166): the bytes of BUF and the chunk are split into candidates, each as long as its own
header declares, and the bytes that stay in BUF; the events are those of the candidates, in order. -/
def Obligations.FeedEventsAreInStreamOrder : Prop :=
  ∀ (c : List Byte) (s t : State), deframerOk s.buf s.mode = true → exec (.feed c) s = .next t →
    ∃ (cs : List (List Byte)) (gs : List (List Event)),
      s.buf ++ c = cs.flatten ++ t.buf ∧ (∀ x ∈ cs, Framed x) ∧
      List.Forall₂ CandidateEvents cs gs ∧ t.response = .events gs.flatten ∧
      deframerOk t.buf t.mode = true

/-- R163: feeding a byte stream in any chunks, down to single bytes, gives the same events and the same
state as feeding it at once. Where one of the chunks is refused, so is the whole: that rests on log 13, and on
`performAll` ending at the first refusal. -/
def Obligations.FeedIsChunkInvariant : Prop :=
  ∀ s : State, deframerOk s.buf s.mode = true →
    (∀ cs : List (List Byte), performAll (cs.map Instr.feed) s = exec (.feed cs.flatten) s) ∧
    ∀ bs : List Byte, performAll (feedEach bs) s = exec (.feed bs) s

/-- R158: after every FEED the deframer invariant of R33 holds, and BUF holds at most 65538 bytes. -/
def Obligations.FeedLeavesNoCompleteCandidate : Prop :=
  ∀ (c : List Byte) (s t : State), deframerOk s.buf s.mode = true → exec (.feed c) s = .next t →
    ((t.mode = .awaitingHeader ∧ t.buf.length ≤ 2) ∨
      ∃ (b0 b1 b2 : Byte) (rest : List Byte) (len : Half),
        t.mode = .awaitingPayload b0 len ∧ t.buf = b0 :: b1 :: b2 :: rest ∧
        len.toNat = b1.toNat * 256 + b2.toNat ∧ t.buf.length ≤ len.toNat + 3) ∧
    t.buf.length ≤ 65538

/-- R152: FEED's loop ends after at most two repetitions for each candidate it completes and one more, not
counting the one that stops. -/
def Obligations.FeedLoopEnds : Prop :=
  ∀ (c : List Byte) (s t : State), deframerOk s.buf s.mode = true → exec (.feed c) s = .next t →
    ∃ cs : List (List Byte), s.buf ++ c = cs.flatten ++ t.buf ∧ (∀ x ∈ cs, Framed x) ∧
      feedLoop (2 * cs.length + 2) (appendBuf c (beginEvents s)) = .next t

/-- R164: an empty chunk changes no state and emits no event. -/
def Obligations.FeedOfNothingChangesNothing : Prop :=
  ∀ s : State, deframerOk s.buf s.mode = true →
    exec (.feed []) s = .next { s with response := .events [] }

/-- R151, R153, R154, R167: a header or a candidate whose bytes have not all arrived waits: the chunk is
appended, the header is latched once it is there, and there is no event. -/
def Obligations.FeedWaitsForMissingBytes : Prop :=
  ∀ (c : List Byte) (s : State), deframerOk s.buf s.mode = true →
    ((s.buf ++ c).length ≤ 2 → exec (.feed c) s =
      .next { s with buf := s.buf ++ c, mode := .awaitingHeader, response := .events [] }) ∧
    ∀ (b0 b1 b2 : Byte) (rest : List Byte) (len : Half), s.buf ++ c = b0 :: b1 :: b2 :: rest →
      len.toNat = b1.toNat * 256 + b2.toNat → rest.length ≤ len.toNat →
      exec (.feed c) s = .next { s with
        buf := s.buf ++ c, mode := .awaitingPayload b0 len, response := .events [] }

/-- R155, R156, R166: when the next candidate is complete and decodes to a message, FEED runs that
message's instruction (log 12), and then goes on with the bytes after it. Where either is refused, so is the
whole FEED: that is log 13. -/
def Obligations.FeedRunsAcceptedMessages : Prop :=
  ∀ (c rest : List Byte) (m : Message) (s : State), deframerOk s.buf s.mode = true →
    m.instr.wellFormed = true → s.buf ++ c = encode m.instr ++ rest →
    exec (.feed c) s =
      andThen (exec m.instr { s with buf := [], mode := .awaitingHeader, response := .events [] })
        fun t => andThen (exec (.feed rest) t) fun u =>
          .next { u with
            response := .events (Response.eventList t.response ++ Response.eventList u.response) }

/-- R155, R157, R166: when the next candidate is complete and does not decode, FEED emits its error and
nothing else for it, consumes as many bytes as its header declares, and goes on with the bytes after it.
Where the rest is refused, so is the whole FEED, and the error is not emitted: that is log 13. -/
def Obligations.FeedReportsBadCandidates : Prop :=
  ∀ (c rest cand : List Byte) (e : ErrorKind) (s : State), deframerOk s.buf s.mode = true →
    Framed cand → decodeWire cand = .error e → s.buf ++ c = cand ++ rest →
    (e = .unknownType ∨ e = .checksumMismatch) ∧
    exec (.feed c) s =
      andThen (exec (.feed rest) { s with buf := [], mode := .awaitingHeader }) fun u =>
        .next { u with response := .events (.err e :: Response.eventList u.response) }

/-- R165, R161, R245: FEED never emits Truncated, LengthMismatch or IncompleteFrameDiscarded; where BUF and the
chunk hold no complete candidate, but an incomplete header or payload, there is no event. -/
def Obligations.FeedNeverEmitsTruncated : Prop :=
  (∀ (c : List Byte) (s t : State) (es : List Event), exec (.feed c) s = .next t →
    t.response = .events es → ∀ e, .err e ∈ es →
      e ≠ .truncated ∧ e ≠ .lengthMismatch ∧ e ≠ .incompleteFrameDiscarded) ∧
  ∀ (c : List Byte) (s : State), deframerOk s.buf s.mode = true →
    ((s.buf ++ c).length ≤ 2 ∨ ∃ (b0 b1 b2 : Byte) (rest : List Byte),
      s.buf ++ c = b0 :: b1 :: b2 :: rest ∧ rest.length ≤ b1.toNat * 256 + b2.toNat) →
    ∃ t, exec (.feed c) s = .next t ∧ t.response = .events []

/-- R161: DECODE of a candidate as long as its own header declares never gives Truncated or
LengthMismatch: its only errors are UnknownType and ChecksumMismatch. A candidate that gave either of the
others would be a fault. -/
def Obligations.FramedCandidatesFitTheirLength : Prop :=
  (∀ c : List Byte, Framed c →
    decodeWire c ≠ .error .truncated ∧ decodeWire c ≠ .error .lengthMismatch ∧
    ∀ e, decodeWire c = .error e → e = .unknownType ∨ e = .checksumMismatch) ∧
  ∀ (c : List Byte) (s : State),
    decodeWire c = .error .truncated ∨ decodeWire c = .error .lengthMismatch →
    runCandidate c s = .fault .internalInvariant

/-- R162: FEED_BYTE is FEED of one byte, and completes at most one candidate. -/
def Obligations.FeedByteCompletesAtMostOne : Prop :=
  ∀ (b : Byte) (s : State), exec (.feedByte b) s = exec (.feed [b]) s ∧
    ∀ t, deframerOk s.buf s.mode = true → exec (.feedByte b) s = .next t →
      t.response = .events [] ∨ ∃ c es, CandidateEvents c es ∧ t.response = .events es

/-- R168: the mode machine, row by row, as FEED repeats it (R152). -/
def Obligations.ModeMachineRows : Prop :=
  ∀ s : State,
    (s.mode = .awaitingHeader → s.buf.length < 3 → modeStep s = none) ∧
    (∀ b0 b1 b2 rest, s.mode = .awaitingHeader → s.buf = b0 :: b1 :: b2 :: rest →
      ∃ len : Half, len.toNat = b1.toNat * 256 + b2.toNat ∧
        modeStep s = some (.next { s with mode := .awaitingPayload b0 len })) ∧
    ∀ t len, s.mode = .awaitingPayload t len →
      (s.buf.length < len.toNat + 4 → modeStep s = none) ∧
      (len.toNat + 4 ≤ s.buf.length → ∃ o, modeStep s = some o ∧
        (∀ m, decodeWire (s.buf.take (len.toNat + 4)) = .ok m → o = exec m.instr
          { s with buf := s.buf.drop (len.toNat + 4), mode := .awaitingHeader }) ∧
        ∀ e, e = .unknownType ∨ e = .checksumMismatch →
          decodeWire (s.buf.take (len.toNat + 4)) = .error e → o = .next { s with
            buf := s.buf.drop (len.toNat + 4), mode := .awaitingHeader,
            response := .events (Response.eventList s.response ++ [.err e]) })

/-- R150, R38, R127: what FEED and FEED_BYTE leave: the marks, the configuration and the pending commands
always, TABLE and DISCARD_COUNT when no Data message is among the events. -/
def Obligations.FeedFrame : Prop :=
  ∀ (i : Instr) (s t : State) (es : List Event),
    (∃ c, i = .feed c) ∨ (∃ b, i = .feedByte b) → exec i s = .next t → t.response = .events es →
    t.faultMark = s.faultMark ∧ t.refusedMark = s.refusedMark ∧ t.cfg = s.cfg ∧
    t.pending = s.pending ∧
    ((∀ m, .msg m ∈ es → m.type ≠ .data) →
      t.table = s.table ∧ t.discardCount = s.discardCount)

/-- R42: the messages that FEED emits and DECODE answers satisfy the invariant of a Message. -/
def Obligations.AnsweredMessagesAreWellFormed : Prop :=
  (∀ (c : List Byte) (s t : State) (es : List Event) (m : Message), exec (.feed c) s = .next t →
    t.response = .events es → .msg m ∈ es → m.length.toNat = m.payload.length) ∧
  ∀ (bs : List Byte) (s t : State) (m : Message), exec (.decode bs) s = .next t →
    t.response = .message m → m.length.toNat = m.payload.length

/-! ## SegmentReassembler -/

/-- R190: PARSE_SEGMENT splits a payload of at least 4 bytes into its segment fields, whatever their
values, and answers InvalidSegment for a shorter one; it changes nothing else. -/
def Obligations.ParseSegmentSplitsThePayload : Prop :=
  ∀ (p : List Byte) (s : State),
    (p.length < 4 →
      exec (.parseSegment p) s = .next { s with response := .error .invalidSegment }) ∧
    ∀ (f1 f0 k t : Byte) (d : List Byte), p = f1 :: f0 :: k :: t :: d → ∃ g : Segment,
      exec (.parseSegment p) s = .next { s with response := .segment g } ∧
      g.frameID.toNat = f1.toNat * 256 + f0.toNat ∧ g.segmentID = k ∧ g.totalSegments = t ∧
      g.data = d

/-- R192, R193: a segmentID not below the segment's own total, or not below the total recorded for its
frame, is answered with InvalidSegment and changes no state. -/
def Obligations.OutOfRangeSegmentsAreRejected : Prop :=
  ∀ (f : Half) (k t : Byte) (d : List Byte) (s : State),
    (t.toNat ≤ k.toNat →
      exec (.addSegment f k t d) s = .next { s with response := .events [.err .invalidSegment] }) ∧
    ∀ A, lookupFrame f s.table = some A → A.totalSegments.toNat ≤ k.toNat →
      exec (.addSegment f k t d) s = .next { s with response := .events [.err .invalidSegment] }

/-- R194, R198: the first segment of an incomplete frame creates its record at the end of TABLE; if
TABLE then holds more than MAX_FRAMES records, the oldest is removed and DISCARD_COUNT counts it, with no
event. A segment of an existing record, or one that completes its frame, never evicts. -/
def Obligations.NewRecordsEvictTheOldest : Prop :=
  (∀ (f : Half) (k t : Byte) (d : List Byte) (s : State), k.toNat < t.toNat → t.toNat ≠ 1 →
    lookupFrame f s.table = none → fits s.cfg (usage s.table + d.length) = true →
    (s.table.length < s.cfg.maxFrames → exec (.addSegment f k t d) s = .next { s with
      table := s.table ++ [{ frameID := f, totalSegments := t, segments := [(k, d)] }],
      response := .events [] }) ∧
    ∀ B rest, s.table = B :: rest → s.cfg.maxFrames ≤ s.table.length →
      exec (.addSegment f k t d) s = .next { s with
        table := rest ++ [{ frameID := f, totalSegments := t, segments := [(k, d)] }],
        discardCount := s.discardCount + 1, response := .events [] }) ∧
  ∀ (f : Half) (k t : Byte) (d : List Byte) (s u : State), exec (.addSegment f k t d) s = .next u →
    (∃ A, lookupFrame f s.table = some A) ∨ (∃ fr, u.response = .events [.frame fr]) →
    u.discardCount = s.discardCount ∧
      u.table.filter (fun B => B.frameID ≠ f) = s.table.filter (fun B => B.frameID ≠ f)

/-- R195, R196: a segment that leaves its frame's record incomplete is stored in it at its place, replacing
what the slot held; the record keeps its total, whatever total the segment names, and its other slots. -/
def Obligations.SegmentsAreStoredInTheirRecord : Prop :=
  ∀ (f : Half) (k t : Byte) (d : List Byte) (s : State) (A : FrameAssembly), s.TableInv →
    k.toNat < t.toNat → lookupFrame f s.table = some A → k.toNat < A.totalSegments.toNat →
    fits s.cfg (usage s.table - ((slot k A.segments).getD []).length + d.length) = true →
    (slot k A.segments = none → A.segments.length + 1 < A.totalSegments.toNat) →
    ∃ A' : FrameAssembly,
      exec (.addSegment f k t d) s = .next { s with
        table := s.table.map (fun B => if B.frameID = f then A' else B), response := .events [] } ∧
      A'.frameID = f ∧ A'.totalSegments = A.totalSegments ∧ slot k A'.segments = some d ∧
      ∀ j, j ≠ k → slot j A'.segments = slot j A.segments

/-- R197: the segment that fills its frame's record removes the record and answers the frame, whose
payload is the slots in ascending order, every one of them there; a frame of one segment completes at
once; a segment that does not fill its record emits nothing. -/
def Obligations.FullFramesAreEmitted : Prop :=
  (∀ (f : Half) (k t : Byte) (d : List Byte) (s : State) (A : FrameAssembly), s.TableInv →
    k.toNat < t.toNat → lookupFrame f s.table = some A → k.toNat < A.totalSegments.toNat →
    fits s.cfg (usage s.table + d.length) = true →
    slot k A.segments = none → A.segments.length + 1 = A.totalSegments.toNat →
    exec (.addSegment f k t d) s = .next { s with
      table := s.table.filter (fun B => B.frameID ≠ f),
      response := .events [.frame { frameID := f, payload := ((List.range A.totalSegments.toNat).map
        fun n => if n = k.toNat then d else (slot (BitVec.ofNat 8 n) A.segments).getD []).flatten }] } ∧
    ∀ n, n < A.totalSegments.toNat → n ≠ k.toNat →
      (slot (BitVec.ofNat 8 n) A.segments).isSome = true) ∧
  (∀ (f : Half) (k t : Byte) (d : List Byte) (s : State), t.toNat = 1 → k.toNat = 0 →
    lookupFrame f s.table = none → fits s.cfg (usage s.table + d.length) = true →
    exec (.addSegment f k t d) s =
      .next { s with response := .events [.frame { frameID := f, payload := d }] }) ∧
  ∀ (f : Half) (k t : Byte) (d : List Byte) (s u : State), s.TableInv → k.toNat < t.toNat →
    exec (.addSegment f k t d) s = .next u →
    (lookupFrame f s.table = none → t.toNat ≠ 1 → u.response = .events []) ∧
    ∀ A, lookupFrame f s.table = some A → k.toNat < A.totalSegments.toNat →
      (slot k A.segments ≠ none ∨ A.segments.length + 1 < A.totalSegments.toNat) →
      u.response = .events []

/-- R200: a segment that would make the store usage exceed STORE_CAP is refused as StoreFull, the bytes its
slot held counted out and before any eviction; with an unbounded store nothing is refused. A step that is so
refused leaves the block state, and sets REFUSED, with this reason if it was clear. -/
def Obligations.StoreFullIsRefused : Prop :=
  ∀ (f : Half) (k t : Byte) (d : List Byte) (s : State), k.toNat < t.toNat →
    (∀ cap, lookupFrame f s.table = none → s.cfg.storeCap = some cap →
      cap < usage s.table + d.length → exec (.addSegment f k t d) s = .refused .storeFull) ∧
    (∀ A cap, lookupFrame f s.table = some A → k.toNat < A.totalSegments.toNat →
      s.cfg.storeCap = some cap →
      cap < usage s.table - ((slot k A.segments).getD []).length + d.length →
      exec (.addSegment f k t d) s = .refused .storeFull) ∧
    (s.cfg.storeCap = none → ∀ r, exec (.addSegment f k t d) s ≠ .refused r) ∧
    ∀ c cs, s.faultMark = none → s.pending = c :: cs → decodeCommand c = .ok (.addSegment f k t d) →
      exec (.addSegment f k t d) s = .refused .storeFull →
      step s = .refused .storeFull ∧ (advance s).buf = s.buf ∧ (advance s).mode = s.mode ∧
      (advance s).table = s.table ∧ (advance s).discardCount = s.discardCount ∧
      (advance s).faultMark = s.faultMark ∧ (advance s).refusedMark ≠ none ∧
      (s.refusedMark = none → (advance s).refusedMark = some .storeFull)

/-- R199: the N segments of a frame, added in any order from a state without a record for it, answer
nothing until the last, which answers the frame with the segments in ascending order. They complete back to
back where the store has room; and with any operations in between that leave the frame's record as it was, if
each of them answers a next state, they answer the same. -/
def Obligations.ReassemblyIgnoresSegmentOrder : Prop :=
  ∀ (f : Half) (ds : List (List Byte)) (ks : List Nat) (k : Nat) (s : State), s.TableInv →
    ds.length ≤ 255 → (ks ++ [k]).Perm (List.range ds.length) → lookupFrame f s.table = none →
    (∀ rs t, SegmentsAdded f ds s rs t → rs.map Prod.fst = ks ++ [k] →
      rs.map Prod.snd = ks.map (fun _ => .events []) ++
        [.events [.frame { frameID := f, payload := ds.flatten }]] ∧ lookupFrame f t.table = none) ∧
    (fits s.cfg (usage s.table + ds.flatten.length) = true → ∃ t u,
      performAll (ks.map fun n => .addSegment f (BitVec.ofNat 8 n) (BitVec.ofNat 8 ds.length)
        (ds.getD n [])) s = .next t ∧ t.response = .events [] ∧
      exec (.addSegment f (BitVec.ofNat 8 k) (BitVec.ofNat 8 ds.length) (ds.getD k [])) t = .next u ∧
      u.response = .events [.frame { frameID := f, payload := ds.flatten }] ∧
      lookupFrame f u.table = none)

/-- R201: a segment submitted twice before completion, with `x` and then, among those still to come, with
its own data, leaves the frame incomplete both times, and the frame completes with the data of the second
submission. -/
def Obligations.SecondSubmissionOverwrites : Prop :=
  ∀ (f : Half) (ds : List (List Byte)) (x : List Byte) (ks ls : List Nat) (k j : Nat) (s : State),
    s.TableInv → ds.length ≤ 255 → (ks ++ ls ++ [k]).Perm (List.range ds.length) → j ∈ ls →
    lookupFrame f s.table = none →
    fits s.cfg (usage s.table + ds.flatten.length + x.length) = true →
    ∃ t u,
      performAll ((ks.map fun n => .addSegment f (BitVec.ofNat 8 n) (BitVec.ofNat 8 ds.length)
          (ds.getD n [])) ++
        .addSegment f (BitVec.ofNat 8 j) (BitVec.ofNat 8 ds.length) x ::
        ls.map fun n => .addSegment f (BitVec.ofNat 8 n) (BitVec.ofNat 8 ds.length)
          (ds.getD n [])) s = .next t ∧ t.response = .events [] ∧
      exec (.addSegment f (BitVec.ofNat 8 k) (BitVec.ofNat 8 ds.length) (ds.getD k [])) t = .next u ∧
      u.response = .events [.frame { frameID := f, payload := ds.flatten }]

/-- R202, R203: once a segment creates one record more than MAX_FRAMES, the oldest record is gone, and a
later segment of its frame starts a fresh record with no memory of it. -/
def Obligations.EvictedFramesStartAfresh : Prop :=
  ∀ (s : State) (B : FrameAssembly) (rest : List FrameAssembly) (f : Half) (k t : Byte) (d : List Byte),
    s.TableInv → s.table = B :: rest → s.table.length = s.cfg.maxFrames →
    lookupFrame f s.table = none → k.toNat < t.toNat → t.toNat ≠ 1 →
    fits s.cfg (usage s.table + d.length) = true →
    ∃ u, exec (.addSegment f k t d) s = .next u ∧ u.response = .events [] ∧
      u.discardCount = s.discardCount + 1 ∧ lookupFrame B.frameID u.table = none ∧
      ∀ (k' : Byte) (d' : List Byte), k'.toNat < B.totalSegments.toNat → B.totalSegments.toNat ≠ 1 →
        fits s.cfg (usage u.table + d'.length) = true →
        ∃ v, exec (.addSegment B.frameID k' B.totalSegments d') u = .next v ∧
          v.response = .events [] ∧ lookupFrame B.frameID v.table =
            some { frameID := B.frameID, totalSegments := B.totalSegments, segments := [(k', d')] }

/-- R204: the payload of an emitted frame is as long as its stored segments together, at most 255 times the
longest a segment may be. -/
def Obligations.FramePayloadIsTheSumOfItsSegments : Prop :=
  ∀ (f : Half) (k t : Byte) (d : List Byte) (s u : State) (fr : ReassembledFrame), s.TableInv →
    exec (.addSegment f k t d) s = .next u → u.response = .events [.frame fr] →
    (∀ A, lookupFrame f s.table = some A → fr.payload.length +
      ((slot k A.segments).getD []).length = segmentBytes A.segments + d.length) ∧
    (lookupFrame f s.table = none → fr.payload.length = d.length) ∧
    ∀ n, d.length ≤ n → (∀ A ∈ s.table, ∀ e ∈ A.segments, e.2.length ≤ n) →
      fr.payload.length ≤ 255 * n

/-- R191, R35: what ADD_SEGMENT leaves: BUF, MODE, the marks, the configuration, and every record of another
frame with its place, but for the oldest when a new record evicts it and DISCARD_COUNT counts that. -/
def Obligations.AddSegmentFrame : Prop :=
  ∀ (f : Half) (k t : Byte) (d : List Byte) (s u : State), exec (.addSegment f k t d) s = .next u →
    u.buf = s.buf ∧ u.mode = s.mode ∧ u.faultMark = s.faultMark ∧ u.refusedMark = s.refusedMark ∧
    u.cfg = s.cfg ∧ u.pending = s.pending ∧
    ((u.table.filter (fun B => B.frameID ≠ f) = s.table.filter (fun B => B.frameID ≠ f) ∧
        u.discardCount = s.discardCount) ∨
      (lookupFrame f s.table = none ∧ s.cfg.maxFrames ≤ s.table.length ∧
        u.table.filter (fun B => B.frameID ≠ f) = s.table.drop 1 ∧
        u.discardCount = s.discardCount + 1))

/-! ## Lifecycle -/

/-- R230, R46: RESET gives BUF, MODE, TABLE and DISCARD_COUNT their reset values, answers nothing, and
leaves FAULT, REFUSED and the configuration. -/
def Obligations.ResetDiscardsEverything : Prop :=
  ∀ s : State, ∃ t, exec .reset s = .next t ∧ t.buf = [] ∧ t.mode = .awaitingHeader ∧ t.table = [] ∧
    t.discardCount = 0 ∧ t.response = .none ∧ t.faultMark = s.faultMark ∧
    t.refusedMark = s.refusedMark ∧ t.cfg = s.cfg ∧ t.pending = s.pending

/-- R232: after a RESET nothing the host observes, and no block state, depends on the connection before
it: two blocks of one configuration answer the same operations alike. -/
def Obligations.ResetCarriesNothingOver : Prop :=
  ∀ (is : List Instr) (s s' u : State), s.cfg = s'.cfg →
    performAll (.reset :: is) s = .next u → ∃ u', performAll (.reset :: is) s' = .next u' ∧
      u'.observe = u.observe ∧ u'.buf = u.buf ∧ u'.mode = u.mode ∧ u'.table = u.table

/-! ## The whole machine -/

/-- R8, R95, R247, R290: a step decodes the host's first pending command and runs it; it ends with the test
of the invariants R33 and R36. A faulted block takes no step; with nothing pending nothing happens
(log 3). That the test stands at the end of the step is log 8. -/
def Obligations.StepRunsTheDecodedCommand : Prop :=
  ∀ s : State,
    (∀ f, s.faultMark = some f → step s = .fault f) ∧
    (s.faultMark = none → s.pending = [] → step s = .next s) ∧
    ∀ c cs i, s.faultMark = none → s.pending = c :: cs → decodeCommand c = .ok i →
      step s = match exec i { s with pending := cs } with
        | .next t => if t.consistent = true then .next t else .fault .internalInvariant
        | .fault f => .fault f
        | .refused r => .refused r

/-- R33, R35 to R37, R49: every step that answers a next state keeps the invariants of the state between
operations, from every state that has them. -/
def Obligations.StepKeepsTheInvariants : Prop :=
  ∀ s t : State, s.Inv → step s = .next t → t.Inv

/-- R270, R46: the state at power-on has the invariants, with BUF, TABLE and DISCARD_COUNT empty and the
marks clear; RESET leaves that same state. -/
def Obligations.PowerOnHasTheInvariants : Prop :=
  State.reset.Inv ∧ State.reset.Clean ∧ State.reset.buf = [] ∧ State.reset.mode = .awaitingHeader ∧
    State.reset.table = [] ∧ State.reset.discardCount = 0 ∧
    ∃ t, exec .reset State.reset = .next t ∧ t.buf = State.reset.buf ∧ t.mode = State.reset.mode ∧
      t.table = State.reset.table ∧ t.discardCount = State.reset.discardCount ∧ t.Clean

/-- R247 ("No correct run reaches it"): from a state with the invariants and FAULT clear, no step faults,
whatever command is pending. -/
def Obligations.NoStepFaults : Prop :=
  ∀ (s : State) (f : Fault), s.Inv → s.faultMark = none → step s ≠ .fault f

/-- R41, R248: no step clears FAULT or REFUSED, RESET included; a fault or a refusal sets its mark, and the
mark holds its reason; a refused step, whatever its reason, performs nothing: BUF, MODE, TABLE, DISCARD_COUNT,
FAULT and the configuration are as before. That a mark already set keeps its first reason is the model's choice (log 6). -/
def Obligations.MarksAreSticky : Prop :=
  ∀ s : State,
    (∀ t, step s = .next t → t.faultMark = s.faultMark ∧ t.refusedMark = s.refusedMark) ∧
    (∀ f, step s = .fault f → (advance s).faultMark = some (s.faultMark.getD f) ∧
      (advance s).refusedMark = s.refusedMark) ∧
    (∀ r, step s = .refused r → (advance s).refusedMark = some (s.refusedMark.getD r) ∧
      (advance s).faultMark = s.faultMark ∧ (advance s).buf = s.buf ∧ (advance s).mode = s.mode ∧
      (advance s).table = s.table ∧ (advance s).discardCount = s.discardCount ∧
      (advance s).cfg = s.cfg) ∧
    (∀ r, s.refusedMark = some r → (advance s).refusedMark = some r) ∧
    ∀ f, s.faultMark = some f → (advance s).faultMark = some f

/-- R248: the reasons a step is refused, each with its cause; PayloadTooLong is not spellable in the
command form. NotACommand is the model's name for R283 (log 9). -/
def Obligations.RefusalsHaveTheirReasons : Prop :=
  ∀ (s : State) (r : Refusal), step s = .refused r → ∃ c cs, s.pending = c :: cs ∧
    ((r = .illegalCommand ∧ ∃ op rest, c = op :: rest ∧ (op = 0x00 ∨ 0x08 ≤ op.toNat)) ∨
     (r = .notACommand ∧ ∀ i, decodeCommand c ≠ .ok i) ∨
     (r = .unknownEncodeType ∧ ∃ tc p, decodeCommand c = .ok (.encode tc p) ∧
        tc ∉ [(0x01 : Byte), 0x02, 0x03, 0x04, 0x05]) ∨
     (r = .storeFull ∧ s.cfg.storeCap ≠ none ∧ ∃ i, decodeCommand c = .ok i ∧
        ((∃ f k t d, i = .addSegment f k t d) ∨ (∃ x, i = .feed x) ∨ ∃ b, i = .feedByte b)))

/-- R32, R40, R41: over all instructions, only FEED, FEED_BYTE and RESET write BUF and MODE, and none writes
the configuration, the marks or the pending commands. -/
def Obligations.OnlyDeframerAndResetWriteTheBuffer : Prop :=
  ∀ (i : Instr) (s t : State), exec i s = .next t →
    t.cfg = s.cfg ∧ t.faultMark = s.faultMark ∧ t.refusedMark = s.refusedMark ∧
    t.pending = s.pending ∧
    ((∀ c, i ≠ .feed c) → (∀ b, i ≠ .feedByte b) → i ≠ .reset → t.buf = s.buf ∧ t.mode = s.mode)

/-- R38, R198, R245, R252: over all instructions, DISCARD_COUNT changes only by RESET, to 0, and by eviction,
by one for each record evicted, modulo 2^32. TABLE goes from before to after segment by segment: ADD_SEGMENT
offers that of its operands, a Data message that of its payload, FEED that of each Data message among its
events, in their order, every other instruction none. An eviction removes the oldest record of a full TABLE for
the new record of the segment offered; a segment that does not evict changes at most the record of its own
frame, which goes only when it is complete; a payload that carries no segment changes nothing. MAX_FRAMES is at
least 1 (R10). -/
def Obligations.DiscardCountCountsEvictions : Prop :=
  ∀ (i : Instr) (s t : State), 1 ≤ s.cfg.maxFrames → exec i s = .next t →
    (i = .reset → t.discardCount = 0) ∧
    (i ≠ .reset → ∃ evictions : List Bool,
      TableRun s.cfg.maxFrames s.table (segmentsOffered i t.response) evictions t.table ∧
      t.discardCount = s.discardCount + BitVec.ofNat 32 (evictions.count true))

/-- R74: a step of one instance touches no other instance, and is a step of that instance alone. The list
of instances is the model's form (log 16). -/
def Obligations.InstancesAreIndependent : Prop :=
  ∀ (n : Nat) (sys sys' : List State), stepInstance n sys = .next sys' →
    sys'.length = sys.length ∧ (∀ k, k ≠ n → sys'[k]? = sys[k]?) ∧
    ∀ s, sys[n]? = some s → ∃ t, step s = .next t ∧ sys'[n]? = some t
end

