-- ==== Sys2Proof/Laws/Bytes.lean ====
section
/-!
SUPPORT. The byte helpers of Decode.lean: big-endian values and their bytes (R14, R63), the XOR fold
(R124), the type codes (R130).
-/

namespace Sys2Proof

theorem be16_toNat (hi lo : Byte) : (be16 hi lo).toNat = hi.toNat * 256 + lo.toNat := by
  simp [be16]; omega

theorem be16_inj {a b c d : Byte} (h : be16 a b = be16 c d) : a = c ∧ b = d := by
  have := congrArg BitVec.toNat h
  rw [be16_toNat, be16_toNat] at this
  constructor <;> apply BitVec.eq_of_toNat_eq <;> omega

/-- The two bytes of a 16-bit value, by name. -/
theorem be16Bytes_eq (v : Half) :
    be16Bytes v = [BitVec.ofNat 8 (v.toNat / 256), BitVec.ofNat 8 v.toNat] := by
  simp only [be16Bytes, List.cons.injEq, and_true]
  constructor <;> apply BitVec.eq_of_toNat_eq <;> simp [BitVec.extractLsb'_toNat, Nat.shiftRight_eq_div_pow]

@[simp] theorem be16Bytes_length (v : Half) : (be16Bytes v).length = 2 := rfl

/-- Reading the bytes of a 16-bit value gives it back. -/
theorem be16_of_bytes (v : Half) :
    be16 (BitVec.ofNat 8 (v.toNat / 256)) (BitVec.ofNat 8 v.toNat) = v := by
  apply BitVec.eq_of_toNat_eq
  rw [be16_toNat]
  simp
  omega

theorem ofNat16_toNat {n : Nat} (h : n ≤ 65535) : (BitVec.ofNat 16 n).toNat = n := by
  simp; omega

/-- The two bytes of a length of at most 65535 (R80, R96). -/
theorem be16Bytes_length_of_le {n : Nat} (h : n ≤ 65535) :
    be16Bytes (BitVec.ofNat 16 n) = [BitVec.ofNat 8 (n / 256), BitVec.ofNat 8 n] := by
  rw [be16Bytes_eq, ofNat16_toNat h]

/-- Reading the two bytes of a length of at most 65535 gives it back. -/
theorem be16_toNat_of_le {n : Nat} (h : n ≤ 65535) :
    (be16 (BitVec.ofNat 8 (n / 256)) (BitVec.ofNat 8 n)).toNat = n := by
  rw [be16_toNat]; simp; omega

theorem be16Bytes_be16 (hi lo : Byte) : be16Bytes (be16 hi lo) = [hi, lo] := by
  rw [be16Bytes_eq, be16_toNat]
  simp only [List.cons.injEq, and_true]
  constructor <;> apply BitVec.eq_of_toNat_eq <;> simp <;> omega

@[simp] theorem be32Bytes_length (n : Nat) : (be32Bytes n).length = 4 := rfl

/-- Reading the bytes of a count below 2^32 gives it back. -/
theorem be32_of_bytes {n : Nat} (h : n < 2 ^ 32) :
    be32 (BitVec.ofNat 8 (n / 2 ^ 24)) (BitVec.ofNat 8 (n / 2 ^ 16)) (BitVec.ofNat 8 (n / 2 ^ 8))
      (BitVec.ofNat 8 n) = n := by
  simp [be32]
  omega

theorem be32_lt (a b c d : Byte) : be32 a b c d < 2 ^ 32 := by
  simp only [be32]; omega

theorem be32Bytes_be32 (a b c d : Byte) : be32Bytes (be32 a b c d) = [a, b, c, d] := by
  simp only [be32Bytes, be32, List.cons.injEq, and_true]
  refine ⟨?_, ?_, ?_, ?_⟩ <;> apply BitVec.eq_of_toNat_eq <;> simp <;> omega

@[simp] theorem xorfold_nil : xorfold [] = 0 := rfl
@[simp] theorem xorfold_cons (b : Byte) (s : List Byte) : xorfold (b :: s) = b ^^^ xorfold s := rfl

@[simp] theorem xorfold_append (s t : List Byte) : xorfold (s ++ t) = xorfold s ^^^ xorfold t := by
  induction s with
  | nil => simp
  | cons b s ih => simp [ih, BitVec.xor_assoc]

@[simp] theorem typeOf_code (t : MsgType) : typeOf t.code = some t := by cases t <;> rfl

theorem code_of_typeOf {b : Byte} {t : MsgType} (h : typeOf b = some t) : t.code = b := by
  unfold typeOf at h
  repeat' split at h
  all_goals simp_all [MsgType.code]
  all_goals (subst_vars; rfl)

/-- `recognized` spelled by the codes of R82. -/
theorem recognized_iff (b : Byte) : recognized b = true ↔ b ∈ [(1 : Byte), 2, 3, 4, 5] := by
  revert b; decide

theorem typeOf_eq_none_iff (b : Byte) : typeOf b = none ↔ b ∉ [(1 : Byte), 2, 3, 4, 5] := by
  rw [← recognized_iff, recognized]
  cases typeOf b <;> simp

end Sys2Proof
end

