-- ==== Sys2Proof/Laws/Codec.lean ====
section
/-!
SUPPORT. What `decodeWire` can answer (R122, R123), and that it reads what `serialize` writes (R80, R81).
-/

namespace Sys2Proof

theorem messageBody_eq (tc : Byte) (p : List Byte) :
    messageBody tc p = tc :: BitVec.ofNat 8 ((BitVec.ofNat 16 p.length).toNat / 256) ::
      BitVec.ofNat 8 (BitVec.ofNat 16 p.length).toNat :: p := by
  simp only [messageBody, be16Bytes_eq, List.cons_append, List.nil_append]

@[simp] theorem messageBody_length (tc : Byte) (p : List Byte) :
    (messageBody tc p).length = p.length + 3 := by
  rw [messageBody_eq]; simp

@[simp] theorem serialize_length (tc : Byte) (p : List Byte) :
    (serialize tc p).length = p.length + 4 := by
  simp [serialize]

/-- DECODE of a sequence with three header bytes and at least one more, as one chain of checks (R122). -/
theorem decodeWire_cons (b0 b1 b2 : Byte) (rest : List Byte) :
    decodeWire (b0 :: b1 :: b2 :: rest) =
      if rest = [] then .error .truncated
      else match typeOf b0 with
        | none => .error .unknownType
        | some t =>
          if rest.length ≠ (be16 b1 b2).toNat + 1 then .error .lengthMismatch
          else if rest[(be16 b1 b2).toNat]? ≠
              some (b0 ^^^ (b1 ^^^ (b2 ^^^ xorfold (rest.take (be16 b1 b2).toNat)))) then
            .error .checksumMismatch
          else .ok { type := t, payload := rest.take (be16 b1 b2).toNat } := by
  cases rest with
  | nil => simp [decodeWire]
  | cons b3 r =>
    cases h : typeOf b0 with
    | none => simp [decodeWire, h]
    | some t => simp only [decodeWire, h]; split_ifs <;> simp_all

/-- Fewer than four bytes are Truncated, and nothing else is (R122). -/
theorem decodeWire_truncated_iff (s : List Byte) :
    decodeWire s = .error .truncated ↔ s.length < 4 := by
  match s with
  | [] | [_] | [_, _] => simp [decodeWire]
  | b0 :: b1 :: b2 :: rest =>
    rw [decodeWire_cons]
    cases rest with
    | nil => simp
    | cons b3 r =>
      simp only [reduceCtorEq, if_false]
      cases typeOf b0 with
      | none => simp
      | some t =>
        dsimp only
        split
        · simp
        · split <;> simp

/-- What DECODE accepts is the wire form of the message it answers (R80 to R82, R122). -/
theorem decodeWire_ok {s : List Byte} {m : Message} (h : decodeWire s = .ok m) :
    m.payload.length ≤ Config.lenMax ∧ s = m.wire := by
  match s, h with
  | [], h | [_], h | [_, _], h => simp [decodeWire] at h
  | b0 :: b1 :: b2 :: rest, h =>
    rw [decodeWire_cons] at h
    split at h
    · simp at h
    split at h
    · simp at h
    rename_i t ht
    split at h
    · simp at h
    rename_i hlen
    split at h
    · simp at h
    rename_i hsum
    simp only [ne_eq, Decidable.not_not] at hlen hsum
    have hm : m = { type := t, payload := rest.take (be16 b1 b2).toNat } := by
      simpa using h.symm
    subst hm
    have hp : (rest.take (be16 b1 b2).toNat).length = (be16 b1 b2).toNat := by simp [hlen]
    constructor
    · simp only [hp, Config.lenMax]; omega
    · have hv : BitVec.ofNat 16 (rest.take (be16 b1 b2).toNat).length = be16 b1 b2 := by
        rw [hp]; simp
      have hsplit : rest = rest.take (be16 b1 b2).toNat ++
          [b0 ^^^ (b1 ^^^ (b2 ^^^ xorfold (rest.take (be16 b1 b2).toNat)))] := by
        conv => lhs; rw [← List.take_append_drop (be16 b1 b2).toNat rest]
        congr 1
        rw [List.drop_eq_getElem?_toList_append, hsum]
        simp [hlen]
      have hc : t.code = b0 := code_of_typeOf ht
      simp only [Message.wire, serialize, messageBody, hv, be16Bytes_be16, hc, List.cons_append,
        List.nil_append, xorfold_cons]
      exact congrArg (fun r => b0 :: b1 :: b2 :: r) hsplit

/-- DECODE reads back what the wire form of a message says (R129). -/
theorem decodeWire_serialize (t : MsgType) {p : List Byte} (h : p.length ≤ Config.lenMax) :
    decodeWire (serialize t.code p) = .ok { type := t, payload := p } := by
  have hn : (BitVec.ofNat 16 p.length).toNat = p.length := by
    simp [Config.lenMax] at *; omega
  have he := be16_of_bytes (BitVec.ofNat 16 p.length)
  have hs : serialize t.code p = t.code :: BitVec.ofNat 8 ((BitVec.ofNat 16 p.length).toNat / 256) ::
      BitVec.ofNat 8 (BitVec.ofNat 16 p.length).toNat :: (p ++ [xorfold (messageBody t.code p)]) := by
    simp only [serialize, messageBody_eq, List.cons_append]
  rw [hs, decodeWire_cons, he, hn]
  simp [messageBody_eq, hn]

/-- The errors DECODE can answer (R240). -/
theorem decodeWire_error_kind {s : List Byte} {e : ErrorKind} (h : decodeWire s = .error e) :
    e = .truncated ∨ e = .unknownType ∨ e = .lengthMismatch ∨ e = .checksumMismatch := by
  match s, h with
  | [], h | [_], h | [_, _], h => simp [decodeWire] at h; simp [← h]
  | b0 :: b1 :: b2 :: rest, h =>
    rw [decodeWire_cons] at h
    repeat' split at h
    all_goals simp at h
    all_goals simp [← h]

/-- A candidate with as many bytes as its header declares is never Truncated or LengthMismatch (R161). -/
theorem decodeWire_framed_error {b0 b1 b2 : Byte} {rest : List Byte} {e : ErrorKind}
    (hlen : rest.length = (be16 b1 b2).toNat + 1)
    (h : decodeWire (b0 :: b1 :: b2 :: rest) = .error e) : e = .unknownType ∨ e = .checksumMismatch := by
  have hne : rest ≠ [] := by intro h0; simp [h0] at hlen
  rw [decodeWire_cons, if_neg hne] at h
  repeat' split at h
  all_goals simp at h
  all_goals simp_all

end Sys2Proof

namespace Sys2Proof

/-! ## Messages as instructions -/

@[simp] theorem encode_instr (m : Message) : encode m.instr = m.wire := by
  obtain ⟨ty, p⟩ := m; cases ty <;> rfl

theorem instr_wellFormed (m : Message) : m.instr.wellFormed = true ↔ m.payload.length ≤ 65535 := by
  obtain ⟨ty, p⟩ := m; cases ty <;> simp [Message.instr, Instr.wellFormed, Config.lenMax]

@[simp] theorem instr_space (m : Message) : m.instr.space = .wire := by
  obtain ⟨ty, p⟩ := m; cases ty <;> rfl

/-- Every instruction of the wire space is some message's. -/
theorem exists_message_of_wire {i : Instr} (h : i.space = .wire) : ∃ m : Message, i = m.instr := by
  cases i with
  | msgControl p => exact ⟨⟨.control, p⟩, rfl⟩
  | msgData p => exact ⟨⟨.data, p⟩, rfl⟩
  | msgError p => exact ⟨⟨.error, p⟩, rfl⟩
  | msgAck p => exact ⟨⟨.ack, p⟩, rfl⟩
  | msgInfo p => exact ⟨⟨.info, p⟩, rfl⟩
  | _ => simp [Instr.space] at h

/-- An operand of the declared length is read whole. -/
theorem takeOperand_append (a r : List Byte) (mk : List Byte → Instr) :
    takeOperand a.length (a ++ r) mk = .ok (mk a, r) := by
  simp [takeOperand]

/-- What reading an operand gives. -/
theorem takeOperand_ok {n : Nat} {r rest : List Byte} {mk : List Byte → Instr} {i : Instr}
    (h : takeOperand n r mk = .ok (i, rest)) : n ≤ r.length ∧ i = mk (r.take n) ∧ rest = r.drop n := by
  unfold takeOperand at h
  split at h
  · simp only [Except.ok.injEq, Prod.mk.injEq] at h
    exact ⟨by assumption, h.1.symm, h.2.symm⟩
  · cases h

end Sys2Proof
end

