-- ==== Sys2Proof/Laws/Segments.lean ====
section
/-!
SUPPORT. The segment map of a record as a finite map (R36): storing keeps the canonical form, a slot reads
what was last stored there, the bytes held, and the concatenation of a full map (R197).
-/

namespace Sys2Proof.Machine

variable {k j : Byte} {d : List Byte} {m : List (Byte × List Byte)} {n : Nat}

@[simp] theorem slot_nil (k : Byte) : slot k [] = none := rfl

theorem slot_eq_none_iff : slot k m = none ↔ k ∉ m.map Prod.fst := by
  induction m with
  | nil => simp
  | cons e m ih =>
    obtain ⟨j, d⟩ := e
    simp only [slot, List.map_cons, List.mem_cons]
    split
    · next h => simp [h]
    · next h => rw [ih]; simp [Ne.symm h]

/-- What stands in a canonical map is what its slot reads. -/
theorem slot_of_mem (hw : SegmentsWf m) (h : (k, d) ∈ m) : slot k m = some d := by
  induction m with
  | nil => simp at h
  | cons e m ih =>
    obtain ⟨j, c⟩ := e
    obtain ⟨hj, hm⟩ := List.pairwise_cons.mp hw
    rcases List.mem_cons.mp h with h | h
    · simp only [Prod.mk.injEq] at h
      simp [slot, h.1, h.2]
    · have hk : j < k := hj k (List.mem_map.mpr ⟨(k, d), h, rfl⟩)
      have hne : j ≠ k := by intro he; subst he; exact absurd hk (by simp)
      simp [slot, hne, ih hm h]

theorem mem_of_slot (h : slot k m = some d) : (k, d) ∈ m := by
  induction m with
  | nil => simp at h
  | cons e m ih =>
    obtain ⟨j, c⟩ := e
    simp only [slot] at h
    split at h
    · next hj => simp only [Option.some.injEq] at h; simp [hj, h]
    · exact List.mem_cons_of_mem _ (ih h)

theorem mem_storeSlot {e : Byte × List Byte} (h : e ∈ storeSlot k d m) : e = (k, d) ∨ e ∈ m := by
  induction m with
  | nil => simpa [storeSlot] using h
  | cons e' m ih =>
    obtain ⟨j, c⟩ := e'
    simp only [storeSlot] at h
    split at h
    · simpa using h
    · split at h
      · rcases List.mem_cons.mp h with h | h
        · exact .inl h
        · exact .inr (List.mem_cons_of_mem _ h)
      · rcases List.mem_cons.mp h with h | h
        · exact .inr (h ▸ List.mem_cons_self)
        · exact (ih h).imp id (List.mem_cons_of_mem _)

/-- Storing keeps the keys strictly rising. -/
theorem storeSlot_wf (hw : SegmentsWf m) : SegmentsWf (storeSlot k d m) := by
  induction m with
  | nil => simp [storeSlot, SegmentsWf]
  | cons e m ih =>
    obtain ⟨j, c⟩ := e
    obtain ⟨hj, hm⟩ := List.pairwise_cons.mp hw
    simp only [storeSlot]
    split
    · next h =>
      refine List.pairwise_cons.mpr ⟨?_, hw⟩
      intro b hb
      rcases List.mem_cons.mp hb with hb | hb
      · exact hb ▸ h
      · exact BitVec.lt_trans h (hj b hb)
    · next h =>
      split
      · next he => subst he; exact hw
      · next he =>
        refine List.pairwise_cons.mpr ⟨?_, ih hm⟩
        intro b hb
        obtain ⟨x, hx, rfl⟩ := List.mem_map.mp hb
        rcases mem_storeSlot hx with hx | hx
        · subst hx
          show j < k
          simp only [BitVec.lt_def, BitVec.toNat_eq] at h he ⊢
          omega
        · exact hj x.1 (List.mem_map.mpr ⟨x, hx, rfl⟩)

@[simp] theorem slot_storeSlot_self : slot k (storeSlot k d m) = some d := by
  induction m with
  | nil => simp [storeSlot, slot]
  | cons e m ih =>
    obtain ⟨j, c⟩ := e
    simp only [storeSlot]
    split
    · simp [slot]
    · split
      · simp [slot]
      · next h => simp [slot, Ne.symm h, ih]

theorem slot_storeSlot_ne (h : j ≠ k) : slot j (storeSlot k d m) = slot j m := by
  induction m with
  | nil => simp [storeSlot, slot, Ne.symm h]
  | cons e m ih =>
    obtain ⟨i, c⟩ := e
    simp only [storeSlot]
    split
    · simp [slot, Ne.symm h]
    · split
      · next hk => subst hk; simp [slot, Ne.symm h]
      · simp [slot, ih]

/-- The size of the map after a store: one more where the slot was empty, else the same (R196). -/
theorem storeSlot_length (hw : SegmentsWf m) :
    (storeSlot k d m).length = if slot k m = none then m.length + 1 else m.length := by
  induction m with
  | nil => simp [storeSlot]
  | cons e m ih =>
    obtain ⟨j, c⟩ := e
    obtain ⟨hj, hm⟩ := List.pairwise_cons.mp hw
    simp only [storeSlot, slot]
    split
    · next h =>
      have hne : j ≠ k := by intro he; subst he; exact absurd h (by simp)
      have hnone : slot k m = none := by
        rw [slot_eq_none_iff]
        intro hmem
        exact absurd (BitVec.lt_trans h (hj k hmem)) (by simp)
      simp [hne, hnone]
    · split
      · next h => subst h; simp
      · next h => simp only [List.length_cons, ih hm, Ne.symm h, if_false]; split <;> rfl

theorem storeSlot_length_pos : 0 < (storeSlot k d m).length := by
  cases m with
  | nil => simp [storeSlot]
  | cons e m => simp only [storeSlot]; split_ifs <;> simp

/-- The bytes held after a store: the slot's old data out, the new data in (R200). -/
theorem segmentBytes_storeSlot (hw : SegmentsWf m) :
    segmentBytes (storeSlot k d m) + ((slot k m).getD []).length = segmentBytes m + d.length := by
  induction m with
  | nil => simp [storeSlot, segmentBytes]
  | cons e m ih =>
    obtain ⟨j, c⟩ := e
    obtain ⟨hj, hm⟩ := List.pairwise_cons.mp hw
    simp only [storeSlot, slot]
    split
    · next h =>
      have hne : j ≠ k := by intro he; subst he; exact absurd h (by simp)
      have hnone : slot k m = none := by
        rw [slot_eq_none_iff]
        intro hmem
        exact absurd (BitVec.lt_trans h (hj k hmem)) (by simp)
      simp [hne, hnone, segmentBytes]; omega
    · split
      · next h => subst h; simp [segmentBytes]; omega
      · next h =>
        have := ih hm
        simp only [Ne.symm h, if_false, segmentBytes]
        omega

theorem slot_length_le : ((slot k m).getD []).length ≤ segmentBytes m := by
  induction m with
  | nil => simp [segmentBytes]
  | cons e m ih =>
    obtain ⟨j, c⟩ := e
    simp only [slot, segmentBytes]
    split
    · simp
    · omega

theorem segmentBytes_eq : segmentBytes m = (m.map Prod.snd).flatten.length := by
  induction m with
  | nil => rfl
  | cons e m ih => obtain ⟨j, c⟩ := e; simp [segmentBytes, ih]

/-- A canonical map of `n` keys below `n` has exactly the keys `0, ..., n-1` (R197). -/
theorem keys_eq_range (hw : SegmentsWf m) (hb : ∀ e ∈ m, e.1.toNat < n) (hn : m.length = n) :
    m.map (fun e => e.1.toNat) = List.range n := by
  have hs : (m.map (fun e => e.1.toNat)).Pairwise (· < ·) := by
    have h1 : m.Pairwise (fun a b => a.1 < b.1) := List.pairwise_map.mp hw
    exact List.pairwise_map.mpr (h1.imp fun h => h)
  have hsub : (m.map (fun e => e.1.toNat)) ⊆ List.range n := by
    intro x hx
    obtain ⟨e, he, rfl⟩ := List.mem_map.mp hx
    exact List.mem_range.mpr (hb e he)
  have hnd : (m.map (fun e => e.1.toNat)).Nodup := hs.imp (fun h => Nat.ne_of_lt h)
  have hp : (m.map (fun e => e.1.toNat)).Perm (List.range n) :=
    (hnd.subperm hsub).perm_of_length_le (by simp [hn])
  exact hp.eq_of_pairwise (le := (· < ·)) (fun a b _ _ h1 h2 => absurd h1 (Nat.lt_asymm h2)) hs
    List.pairwise_lt_range

/-- The concatenation of a map whose keys are `0, ..., n-1` is its data in the order of the list. -/
theorem gather_of_keys (hw : SegmentsWf m) (hk : m.map (fun e => e.1.toNat) = List.range n) (i : Nat)
    (hi : i ≤ n) : gather m i = some ((m.take i).map Prod.snd).flatten := by
  have hlen : m.length = n := by simpa using congrArg List.length hk
  induction i with
  | zero => simp [gather]
  | succ i ih =>
    have him : i < m.length := by omega
    have hkey : (m[i]).1.toNat = i := by
      have := congrArg (fun l => l[i]?) hk
      simpa [him, List.getElem?_range (show i < n by omega)] using this
    have hslot : slot (BitVec.ofNat 8 i) m = some (m[i]).2 := by
      apply slot_of_mem hw
      have : (BitVec.ofNat 8 i, (m[i]).2) = m[i] := by
        apply Prod.ext
        · apply BitVec.eq_of_toNat_eq
          have := (m[i]).1.isLt
          simp only [BitVec.toNat_ofNat]
          omega
        · rfl
      rw [this]
      exact List.getElem_mem him
    simp only [gather, ih (by omega), hslot]
    rw [List.take_add_one, List.getElem?_eq_getElem him]
    simp only [Option.toList_some, List.map_append, List.map_cons, List.map_nil, List.flatten_append,
      List.flatten_cons, List.flatten_nil, List.append_nil]

/-- A full map concatenates (R197: "Every key is present at that point"), to as many bytes as it holds. -/
theorem gather_full (hw : SegmentsWf m) (hb : ∀ e ∈ m, e.1.toNat < n) (hn : m.length = n) :
    gather m n = some (m.map Prod.snd).flatten := by
  rw [gather_of_keys hw (keys_eq_range hw hb hn) n (Nat.le_refl n), ← hn, List.take_length]

end Sys2Proof.Machine
end

