-- ==== Sys2Proof/Laws/State.lean ====
section
/-!
SUPPORT. One lemma per field per update of State: what the small updates of Machine/Ops.lean write and
what they leave.
-/

namespace Sys2Proof.Machine

section
variable (e : Event) (s : State) (r : Response) (c : List Byte)

@[simp] theorem emit_buf : (emit e s).buf = s.buf := rfl
@[simp] theorem emit_mode : (emit e s).mode = s.mode := rfl
@[simp] theorem emit_table : (emit e s).table = s.table := rfl
@[simp] theorem emit_discardCount : (emit e s).discardCount = s.discardCount := rfl
@[simp] theorem emit_faultMark : (emit e s).faultMark = s.faultMark := rfl
@[simp] theorem emit_refusedMark : (emit e s).refusedMark = s.refusedMark := rfl
@[simp] theorem emit_pending : (emit e s).pending = s.pending := rfl
@[simp] theorem emit_cfg : (emit e s).cfg = s.cfg := rfl
@[simp] theorem emit_response :
    (emit e s).response = .events (Response.eventList s.response ++ [e]) := rfl

@[simp] theorem beginEvents_buf : (beginEvents s).buf = s.buf := rfl
@[simp] theorem beginEvents_mode : (beginEvents s).mode = s.mode := rfl
@[simp] theorem beginEvents_table : (beginEvents s).table = s.table := rfl
@[simp] theorem beginEvents_discardCount : (beginEvents s).discardCount = s.discardCount := rfl
@[simp] theorem beginEvents_faultMark : (beginEvents s).faultMark = s.faultMark := rfl
@[simp] theorem beginEvents_refusedMark : (beginEvents s).refusedMark = s.refusedMark := rfl
@[simp] theorem beginEvents_pending : (beginEvents s).pending = s.pending := rfl
@[simp] theorem beginEvents_cfg : (beginEvents s).cfg = s.cfg := rfl
@[simp] theorem beginEvents_response : (beginEvents s).response = .events [] := rfl

@[simp] theorem respond_buf : (respond r s).buf = s.buf := rfl
@[simp] theorem respond_mode : (respond r s).mode = s.mode := rfl
@[simp] theorem respond_table : (respond r s).table = s.table := rfl
@[simp] theorem respond_discardCount : (respond r s).discardCount = s.discardCount := rfl
@[simp] theorem respond_faultMark : (respond r s).faultMark = s.faultMark := rfl
@[simp] theorem respond_refusedMark : (respond r s).refusedMark = s.refusedMark := rfl
@[simp] theorem respond_pending : (respond r s).pending = s.pending := rfl
@[simp] theorem respond_cfg : (respond r s).cfg = s.cfg := rfl
@[simp] theorem respond_response : (respond r s).response = r := rfl

@[simp] theorem appendBuf_buf : (appendBuf c s).buf = s.buf ++ c := rfl
@[simp] theorem appendBuf_mode : (appendBuf c s).mode = s.mode := rfl
@[simp] theorem appendBuf_table : (appendBuf c s).table = s.table := rfl
@[simp] theorem appendBuf_discardCount : (appendBuf c s).discardCount = s.discardCount := rfl
@[simp] theorem appendBuf_faultMark : (appendBuf c s).faultMark = s.faultMark := rfl
@[simp] theorem appendBuf_refusedMark : (appendBuf c s).refusedMark = s.refusedMark := rfl
@[simp] theorem appendBuf_pending : (appendBuf c s).pending = s.pending := rfl
@[simp] theorem appendBuf_cfg : (appendBuf c s).cfg = s.cfg := rfl
@[simp] theorem appendBuf_response : (appendBuf c s).response = s.response := rfl

@[simp] theorem evict_buf : (evict s).buf = s.buf := by unfold evict; split <;> rfl
@[simp] theorem evict_mode : (evict s).mode = s.mode := by unfold evict; split <;> rfl
@[simp] theorem evict_faultMark : (evict s).faultMark = s.faultMark := by unfold evict; split <;> rfl
@[simp] theorem evict_refusedMark : (evict s).refusedMark = s.refusedMark := by
  unfold evict; split <;> rfl
@[simp] theorem evict_pending : (evict s).pending = s.pending := by unfold evict; split <;> rfl
@[simp] theorem evict_cfg : (evict s).cfg = s.cfg := by unfold evict; split <;> rfl
@[simp] theorem evict_response : (evict s).response = s.response := by unfold evict; split <;> rfl

end

@[simp] theorem eventList_events (es : List Event) : Response.eventList (.events es) = es := rfl
@[simp] theorem eventList_none : Response.eventList .none = [] := rfl

@[simp] theorem andThen_next (s : State) (k : State → Result) : andThen (.next s) k = k s := rfl
@[simp] theorem andThen_fault (f : Fault) (k : State → Result) : andThen (.fault f) k = .fault f := rfl
@[simp] theorem andThen_refused (r : Refusal) (k : State → Result) :
    andThen (.refused r) k = .refused r := rfl

/-- The one way a sequence of two operations answers a next state. -/
theorem andThen_eq_next {o : Result} {k : State → Result} {u : State} :
    andThen o k = .next u ↔ ∃ t, o = .next t ∧ k t = .next u := by
  cases o <;> simp

theorem andThen_assoc (o : Result) (k l : State → Result) :
    andThen (andThen o k) l = andThen o fun s => andThen (k s) l := by
  cases o <;> rfl

end Sys2Proof.Machine
end

