-- ==== Sys2Proof/Laws/Reassembler.lean ====
section
/-!
SUPPORT. What storing a segment can do (R191 to R200), once: the table as a finite map, the cases of
`insertSegment`, and that it keeps the invariants of TABLE.
-/

namespace Sys2Proof.Machine

variable {f : Half} {A B : FrameAssembly} {T pre post : List FrameAssembly} {g : Segment} {s t : State}

/-! ## The table as a map from frameIDs to records -/

theorem lookupFrame_some (h : lookupFrame f T = some A) : A ∈ T ∧ A.frameID = f :=
  ⟨List.mem_of_find?_eq_some h, by simpa using List.find?_some h⟩

theorem lookupFrame_eq_none_iff : lookupFrame f T = none ↔ ∀ A ∈ T, A.frameID ≠ f := by
  simp [lookupFrame]

/-- A record's place in a table with at most one record for each frameID (R35). -/
theorem lookupFrame_split (hu : (T.map FrameAssembly.frameID).Nodup) (h : lookupFrame f T = some A) :
    A.frameID = f ∧ ∃ pre post, T = pre ++ A :: post ∧ (∀ B ∈ pre, B.frameID ≠ f) ∧
      ∀ B ∈ post, B.frameID ≠ f := by
  obtain ⟨hm, hf⟩ := lookupFrame_some h
  obtain ⟨pre, post, rfl⟩ := List.append_of_mem hm
  refine ⟨hf, pre, post, rfl, ?_, ?_⟩ <;> intro B hB he
  · rw [List.map_append, List.nodup_append] at hu
    exact hu.2.2 B.frameID (List.mem_map.mpr ⟨B, hB, rfl⟩) A.frameID (by simp) (he.trans hf.symm)
  · rw [List.map_append, List.nodup_append, List.map_cons, List.nodup_cons] at hu
    exact hu.2.1.1 (List.mem_map.mpr ⟨B, hB, he.trans hf.symm⟩)

theorem lookupFrame_at (hA : A.frameID = f) (hpre : ∀ B ∈ pre, B.frameID ≠ f) :
    lookupFrame f (pre ++ A :: post) = some A := by
  induction pre with
  | nil => simp [lookupFrame, hA]
  | cons C pre ih =>
    have hC : C.frameID ≠ f := hpre C List.mem_cons_self
    have := ih fun B hB => hpre B (List.mem_cons_of_mem _ hB)
    simpa [lookupFrame, hC] using this

theorem replaceFrame_of_ne (h : ∀ B ∈ T, B.frameID ≠ A.frameID) : replaceFrame A T = T := by
  unfold replaceFrame
  conv => rhs; rw [← List.map_id T]
  exact List.map_congr_left fun B hB => by simp [h B hB]

theorem replaceFrame_at {A' : FrameAssembly} (hA : A.frameID = A'.frameID)
    (hpre : ∀ B ∈ pre, B.frameID ≠ A'.frameID) (hpost : ∀ B ∈ post, B.frameID ≠ A'.frameID) :
    replaceFrame A' (pre ++ A :: post) = pre ++ A' :: post := by
  have h1 := replaceFrame_of_ne hpre
  have h2 := replaceFrame_of_ne hpost
  unfold replaceFrame at *
  rw [List.map_append, List.map_cons, h1, h2, if_pos hA]

/-- Replacing a record leaves those of every other frame, and their order. -/
theorem replaceFrame_others (hA : A.frameID = f) :
    (replaceFrame A T).filter (fun B => B.frameID ≠ f) = T.filter (fun B => B.frameID ≠ f) := by
  induction T with
  | nil => rfl
  | cons B T ih =>
    simp only [replaceFrame, List.map_cons] at ih ⊢
    by_cases h : B.frameID = A.frameID
    · rw [if_pos h, List.filter_cons, List.filter_cons, if_neg (by simp [hA]),
        if_neg (by simp [h, hA]), ih]
    · rw [if_neg h, List.filter_cons, List.filter_cons, ih]

theorem removeFrame_of_ne (h : ∀ B ∈ T, B.frameID ≠ f) : removeFrame f T = T := by
  unfold removeFrame
  rw [List.filter_eq_self]
  intro B hB
  simpa using h B hB

theorem removeFrame_at (hA : A.frameID = f) (hpre : ∀ B ∈ pre, B.frameID ≠ f)
    (hpost : ∀ B ∈ post, B.frameID ≠ f) : removeFrame f (pre ++ A :: post) = pre ++ post := by
  have h1 := removeFrame_of_ne hpre
  have h2 := removeFrame_of_ne hpost
  unfold removeFrame at *
  rw [List.filter_append, List.filter_cons, h1, h2]
  simp [hA]

@[simp] theorem usage_append (T U : List FrameAssembly) : usage (T ++ U) = usage T + usage U := by
  induction T with
  | nil => simp [usage]
  | cons A T ih => simp [usage, ih]; omega

@[simp] theorem usage_cons : usage (A :: T) = segmentBytes A.segments + usage T := rfl
@[simp] theorem usage_nil : usage [] = 0 := rfl

theorem usage_drop_le (T : List FrameAssembly) : usage (T.drop 1) ≤ usage T := by
  cases T <;> simp

theorem fits_mono {cfg : Params} {n m : Nat} (hnm : n ≤ m) (h : fits cfg m = true) :
    fits cfg n = true := by
  unfold fits at *
  split <;> simp_all
  omega

/-! ## The cases of ADD_SEGMENT -/

/-- A segment passes the checks of R192 and R193. -/
def Accepted (g : Segment) (s : State) : Prop :=
  g.segmentID < g.totalSegments ∧ g.segmentID < effectiveTotal g s

/-- The segment's record is full once it is stored (R197). -/
def Completes (g : Segment) (s : State) : Prop :=
  (storedRecord g s).segments.length = (storedRecord g s).totalSegments.toNat

theorem insertSegment_rejected (h : ¬ Accepted g s) :
    insertSegment g s = .next (emit (.err .invalidSegment) s) := by
  unfold insertSegment Accepted at *
  split
  · rfl
  · split
    · rfl
    · simp_all

theorem insertSegment_storeFull (ha : Accepted g s) (hf : fits s.cfg (usageAfter g s) = false) :
    insertSegment g s = .refused .storeFull := by
  unfold insertSegment
  rw [if_neg (by simpa using ha.1), if_neg (by simpa using ha.2), if_pos (by simp [hf])]

theorem insertSegment_complete (ha : Accepted g s) (hf : fits s.cfg (usageAfter g s) = true)
    (hc : Completes g s) : insertSegment g s = completeFrame g s := by
  unfold Completes at hc
  unfold insertSegment
  rw [if_neg (by simpa using ha.1), if_neg (by simpa using ha.2), if_neg (by simp [hf]), if_pos hc]

theorem insertSegment_incomplete (ha : Accepted g s) (hf : fits s.cfg (usageAfter g s) = true)
    (hc : ¬ Completes g s) : insertSegment g s = .next (keepRecord g s) := by
  unfold Completes at hc
  unfold insertSegment
  rw [if_neg (by simpa using ha.1), if_neg (by simpa using ha.2), if_neg (by simp [hf]), if_neg hc]

/-- Everything that storing a segment can answer. -/
theorem insertSegment_cases (g : Segment) (s : State) :
    (¬ Accepted g s ∧ insertSegment g s = .next (emit (.err .invalidSegment) s)) ∨
    (Accepted g s ∧ fits s.cfg (usageAfter g s) = false ∧ insertSegment g s = .refused .storeFull) ∨
    (Accepted g s ∧ fits s.cfg (usageAfter g s) = true ∧ Completes g s ∧
      insertSegment g s = completeFrame g s) ∨
    (Accepted g s ∧ fits s.cfg (usageAfter g s) = true ∧ ¬ Completes g s ∧
      insertSegment g s = .next (keepRecord g s)) := by
  by_cases ha : Accepted g s
  · by_cases hf : fits s.cfg (usageAfter g s) = true
    · by_cases hc : Completes g s
      · exact .inr (.inr (.inl ⟨ha, hf, hc, insertSegment_complete ha hf hc⟩))
      · exact .inr (.inr (.inr ⟨ha, hf, hc, insertSegment_incomplete ha hf hc⟩))
    · exact .inr (.inl ⟨ha, by simpa using hf, insertSegment_storeFull ha (by simpa using hf)⟩)
  · exact .inl ⟨ha, insertSegment_rejected ha⟩

/-! ## The stored record under the invariants of TABLE -/

theorem recordOk_iff : recordOk A = true ↔ 1 ≤ A.totalSegments.toNat ∧ SegmentsWf A.segments ∧
    (∀ e ∈ A.segments, e.1 < A.totalSegments) ∧ A.segments.length < A.totalSegments.toNat := by
  simp [recordOk, and_assoc]

theorem currentSegments_wf (hi : s.TableInv) (g : Segment) :
    SegmentsWf (currentSegments g s) ∧ (∀ e ∈ currentSegments g s, e.1 < effectiveTotal g s) := by
  unfold currentSegments effectiveTotal
  split
  · next A h =>
    have hr := recordOk_iff.mp (hi.records A (lookupFrame_some h).1)
    exact ⟨hr.2.1, hr.2.2.1⟩
  · simp [SegmentsWf]

/-- The record with the segment stored is canonical, with every key below its total. -/
theorem storedRecord_wf (hi : s.TableInv) (ha : Accepted g s) :
    SegmentsWf (storedRecord g s).segments ∧
      (∀ e ∈ (storedRecord g s).segments, e.1 < (storedRecord g s).totalSegments) ∧
      1 ≤ (storedRecord g s).totalSegments.toNat := by
  obtain ⟨hw, hb⟩ := currentSegments_wf hi g
  refine ⟨storeSlot_wf hw, ?_, ?_⟩
  · intro e he
    rcases mem_storeSlot he with he | he
    · subst he; exact ha.2
    · exact hb e he
  · have := ha.2
    simp only [storedRecord, BitVec.lt_def] at *
    omega

/-- Before a segment is stored, its record holds fewer segments than its total. -/
theorem currentSegments_length (hi : s.TableInv) (ha : Accepted g s) :
    (currentSegments g s).length < (effectiveTotal g s).toNat := by
  unfold currentSegments effectiveTotal
  split
  · next A h => exact (recordOk_iff.mp (hi.records A (lookupFrame_some h).1)).2.2.2
  · have := ha.1
    simp only [BitVec.lt_def, List.length_nil] at *
    omega

theorem storedRecord_length (hi : s.TableInv) (ha : Accepted g s) :
    (storedRecord g s).segments.length ≤ (storedRecord g s).totalSegments.toNat := by
  have h1 := currentSegments_length hi ha
  have h2 := storeSlot_length (k := g.segmentID) (d := g.data) (currentSegments_wf hi g).1
  simp only [storedRecord]
  rw [h2]
  split <;> omega

theorem storedRecord_ok (hi : s.TableInv) (ha : Accepted g s) (hc : ¬ Completes g s) :
    recordOk (storedRecord g s) = true := by
  obtain ⟨h1, h2, h3⟩ := storedRecord_wf hi ha
  have h4 := storedRecord_length hi ha
  unfold Completes at hc
  exact recordOk_iff.mpr ⟨h3, h1, h2, by omega⟩

/-- A complete frame is emitted (R197): no slot is missing, so completion never faults. -/
theorem completeFrame_eq (hi : s.TableInv) (ha : Accepted g s) (hc : Completes g s) :
    completeFrame g s = .next
      (emit (.frame { frameID := g.frameID
                      payload := ((storedRecord g s).segments.map Prod.snd).flatten })
        { s with table := removeFrame g.frameID s.table }) := by
  obtain ⟨h1, h2, _⟩ := storedRecord_wf hi ha
  have := gather_full h1 (fun e he => h2 e he) hc
  simp only [completeFrame, this]

/-- The store usage after a segment is stored is what R200 tests. -/
theorem usage_stored (hi : s.TableInv) (g : Segment) :
    usage s.table + segmentBytes (storedRecord g s).segments =
      usageAfter g s + segmentBytes (currentSegments g s) := by
  have h1 := segmentBytes_storeSlot (k := g.segmentID) (d := g.data) (currentSegments_wf hi g).1
  have h2 : ((slot g.segmentID (currentSegments g s)).getD []).length ≤ usage s.table := by
    refine Nat.le_trans slot_length_le ?_
    unfold currentSegments
    split
    · next A h =>
      obtain ⟨_, pre, post, hs, _⟩ := lookupFrame_split hi.unique h
      rw [hs]; simp; omega
    · simp [segmentBytes]
  simp only [storedRecord, usageAfter] at *
  omega

/-- What an incomplete frame's record does to the table: it is stored at its place, or appended, and
then the oldest may go (R194 to R198). -/
theorem keepRecord_existing (hi : s.TableInv) (h : lookupFrame g.frameID s.table = some A) :
    ∃ pre post, s.table = pre ++ A :: post ∧ (∀ B ∈ pre, B.frameID ≠ g.frameID) ∧
      (∀ B ∈ post, B.frameID ≠ g.frameID) ∧ A.frameID = g.frameID ∧
      keepRecord g s = { s with table := pre ++ storedRecord g s :: post } := by
  obtain ⟨hA, pre, post, hs, hpre, hpost⟩ := lookupFrame_split hi.unique h
  refine ⟨pre, post, hs, hpre, hpost, hA, ?_⟩
  have := replaceFrame_at (A := A) (A' := storedRecord g s) hA hpre hpost
  simp only [keepRecord, h]
  rw [hs, this]

theorem keepRecord_created (h : lookupFrame g.frameID s.table = none) :
    keepRecord g s = evict { s with table := s.table ++ [storedRecord g s] } := by
  simp only [keepRecord, h]

@[simp] theorem keepRecord_cfg : (keepRecord g s).cfg = s.cfg := by
  unfold keepRecord; split <;> simp
@[simp] theorem keepRecord_buf : (keepRecord g s).buf = s.buf := by
  unfold keepRecord; split <;> simp
@[simp] theorem keepRecord_mode : (keepRecord g s).mode = s.mode := by
  unfold keepRecord; split <;> simp
@[simp] theorem keepRecord_pending : (keepRecord g s).pending = s.pending := by
  unfold keepRecord; split <;> simp
@[simp] theorem keepRecord_response : (keepRecord g s).response = s.response := by
  unfold keepRecord; split <;> simp
@[simp] theorem keepRecord_faultMark : (keepRecord g s).faultMark = s.faultMark := by
  unfold keepRecord; split <;> simp
@[simp] theorem keepRecord_refusedMark : (keepRecord g s).refusedMark = s.refusedMark := by
  unfold keepRecord; split <;> simp

/-- Eviction keeps the invariants of a table that is over its bound by at most one record. -/
theorem evict_keeps {s : State} (hr : ∀ A ∈ s.table, recordOk A = true)
    (hu : (s.table.map FrameAssembly.frameID).Nodup) (hb : s.table.length ≤ s.cfg.maxFrames + 1)
    (hf : fits s.cfg (usage s.table) = true) (ht : 1 ≤ s.cfg.maxFrames) : (evict s).TableInv := by
  unfold evict
  split
  · exact ⟨fun A hA => hr A (List.mem_of_mem_drop hA),
      by rw [List.map_drop]; exact hu.sublist (List.drop_sublist _ _),
      by simp only [List.length_drop]; omega, fits_mono (usage_drop_le _) hf, ht⟩
  · exact ⟨hr, hu, by omega, hf, ht⟩

theorem keepRecord_keeps (hi : s.TableInv) (ha : Accepted g s)
    (hf : fits s.cfg (usageAfter g s) = true) (hc : ¬ Completes g s) : (keepRecord g s).TableInv := by
  have hok := storedRecord_ok hi ha hc
  have hus := usage_stored hi g
  cases h : lookupFrame g.frameID s.table with
  | some A =>
    obtain ⟨pre, post, hs, hpre, hpost, hA, he⟩ := keepRecord_existing hi h
    have hcur : currentSegments g s = A.segments := by simp [currentSegments, h]
    have hr := hi.records
    have hu := hi.unique
    have hb := hi.bounded
    rw [hs] at hr hu hb hus
    rw [he]
    refine ⟨?_, ?_, ?_, ?_, hi.tracks⟩
    · intro B hB
      simp only [List.mem_append, List.mem_cons] at hB hr
      rcases hB with hB | hB | hB
      · exact hr B (.inl hB)
      · exact hB ▸ hok
      · exact hr B (.inr (.inr hB))
    · have : (storedRecord g s).frameID = A.frameID := hA.symm
      simpa [this] using hu
    · simpa using hb
    · refine fits_mono ?_ hf
      simp only [usage_append, usage_cons, hcur] at hus ⊢
      omega
  | none =>
    have hn := lookupFrame_eq_none_iff.mp h
    have hcur : currentSegments g s = [] := by simp [currentSegments, h]
    rw [keepRecord_created h]
    refine evict_keeps ?_ ?_ ?_ ?_ hi.tracks
    · intro B hB
      rcases List.mem_append.mp hB with hB | hB
      · exact hi.records B hB
      · exact (List.mem_singleton.mp hB) ▸ hok
    · simp only [List.map_append, List.map_cons, List.map_nil]
      refine List.nodup_append.mpr ⟨hi.unique, by simp, ?_⟩
      intro a ha' b hb' hab
      obtain ⟨B, hB, rfl⟩ := List.mem_map.mp ha'
      exact hn B hB (hab.trans (by simpa [storedRecord] using hb'))
    · simpa using hi.bounded
    · refine fits_mono ?_ hf
      simp only [usage_append, usage_cons, usage_nil, hcur, segmentBytes] at hus ⊢
      omega

theorem usage_remove_le (f : Half) (T : List FrameAssembly) : usage (removeFrame f T) ≤ usage T := by
  induction T with
  | nil => simp [removeFrame]
  | cons A T ih =>
    unfold removeFrame at *
    rw [List.filter_cons]
    split <;> simp only [usage_cons] <;> omega

theorem removeFrame_keeps (hi : s.TableInv) (f : Half) :
    ({ s with table := removeFrame f s.table } : State).TableInv := by
  exact ⟨fun A hA => hi.records A (List.mem_of_mem_filter hA),
    hi.unique.sublist ((List.filter_sublist).map _),
    Nat.le_trans (List.length_filter_le _ _) hi.bounded, fits_mono (usage_remove_le f _) hi.stored, hi.tracks⟩

theorem State.TableInv.of_eq (hi : s.TableInv) (h1 : t.table = s.table) (h2 : t.cfg = s.cfg) :
    t.TableInv := by
  obtain ⟨a, b, c, d, e⟩ := hi
  rw [← h1] at a b c d
  rw [← h2] at c d e
  exact ⟨a, b, c, d, e⟩

theorem emit_tableInv (e : Event) (hi : s.TableInv) : (emit e s).TableInv :=
  ⟨hi.records, hi.unique, hi.bounded, hi.stored, hi.tracks⟩

/-- Storing a segment keeps the invariants of TABLE. -/
theorem insertSegment_keeps (hi : s.TableInv) (h : insertSegment g s = .next t) : t.TableInv := by
  rcases insertSegment_cases g s with ⟨_, he⟩ | ⟨_, _, he⟩ | ⟨ha, _, hc, he⟩ | ⟨ha, hf, hc, he⟩ <;>
    rw [he] at h
  · cases h; exact emit_tableInv _ hi
  · cases h
  · rw [completeFrame_eq hi ha hc] at h
    cases h
    exact emit_tableInv _ (removeFrame_keeps hi _)
  · cases h; exact keepRecord_keeps hi ha hf hc

/-- Storing a segment never faults where the invariants of TABLE hold. -/
theorem insertSegment_ne_fault (hi : s.TableInv) (r : Fault) : insertSegment g s ≠ .fault r := by
  rcases insertSegment_cases g s with ⟨_, he⟩ | ⟨_, _, he⟩ | ⟨ha, _, hc, he⟩ | ⟨_, _, _, he⟩ <;>
    rw [he]
  · simp
  · simp
  · rw [completeFrame_eq hi ha hc]; simp
  · simp

/-- The one refusal of storing a segment is StoreFull, and never with an unbounded store (R200). -/
theorem insertSegment_refused {r : Refusal} (h : insertSegment g s = .refused r) :
    r = .storeFull ∧ fits s.cfg (usageAfter g s) = false := by
  rcases insertSegment_cases g s with ⟨_, he⟩ | ⟨_, hf, he⟩ | ⟨_, _, _, he⟩ | ⟨_, _, _, he⟩ <;>
    rw [he] at h
  · cases h
  · cases h; exact ⟨rfl, hf⟩
  · unfold completeFrame at h; split at h <;> cases h
  · cases h

end Sys2Proof.Machine

namespace Sys2Proof.Machine

/-! ## The record and the usage after storing a segment -/

/-- The record of an incomplete frame is the stored one, whether or not the oldest record went (R198). -/
theorem keepRecord_lookup {g : Segment} {s : State} (hi : s.TableInv) :
    lookupFrame g.frameID (keepRecord g s).table = some (storedRecord g s) := by
  cases hl : lookupFrame g.frameID s.table with
  | some A =>
    obtain ⟨pre, post, _, hpre, _, _, he⟩ := keepRecord_existing hi hl
    rw [he]
    exact lookupFrame_at rfl hpre
  | none =>
    have hne := lookupFrame_eq_none_iff.mp hl
    rw [keepRecord_created hl]
    unfold evict
    split
    · next h =>
      cases ht : s.table with
      | nil => have := hi.tracks; simp [ht] at h; omega
      | cons B T =>
        exact lookupFrame_at rfl (fun C hC => hne C (by rw [ht]; exact List.mem_cons_of_mem _ hC))
    · exact lookupFrame_at rfl hne

theorem usageAfter_le (g : Segment) (s : State) :
    usageAfter g s ≤ usage s.table + g.data.length := by
  unfold usageAfter; omega

/-- Storing a segment adds at most its bytes to the store (R49). -/
theorem insertSegment_usage {g : Segment} {s t : State} (hi : s.TableInv)
    (h : insertSegment g s = .next t) : usage t.table ≤ usage s.table + g.data.length := by
  rcases insertSegment_cases g s with ⟨_, he⟩ | ⟨_, _, he⟩ | ⟨ha, _, hc, he⟩ | ⟨ha, hf, hc, he⟩ <;>
    rw [he] at h
  · cases h; simp
  · cases h
  · rw [completeFrame_eq hi ha hc] at h
    cases h
    have := usage_remove_le g.frameID s.table
    simp only [emit_table]; omega
  · cases h
    have hus := usage_stored hi g
    have hle := usageAfter_le g s
    cases hl : lookupFrame g.frameID s.table with
    | some A =>
      obtain ⟨pre, post, hs, _, _, _, he'⟩ := keepRecord_existing hi hl
      have hcur : currentSegments g s = A.segments := by simp [currentSegments, hl]
      have e : usage s.table = usage pre + (segmentBytes A.segments + usage post) := by rw [hs]; simp
      rw [he']
      simp only [usage_append, usage_cons, hcur] at hus ⊢
      omega
    | none =>
      have hcur : currentSegments g s = [] := by simp [currentSegments, hl]
      have : usage (evict { s with table := s.table ++ [storedRecord g s] }).table ≤
          usage (s.table ++ [storedRecord g s]) := by
        unfold evict
        split
        · exact usage_drop_le _
        · exact Nat.le_refl _
      rw [keepRecord_created hl]
      simp only [usage_append, usage_cons, usage_nil, hcur, segmentBytes] at hus this ⊢
      omega

/-! ## The frame of storing a segment -/

/-- The fields that the operations of the reassembler and of a message leave alone. -/
structure SameRest (s t : State) : Prop where
  buf         : t.buf = s.buf
  mode        : t.mode = s.mode
  faultMark   : t.faultMark = s.faultMark
  refusedMark : t.refusedMark = s.refusedMark
  pending     : t.pending = s.pending
  cfg         : t.cfg = s.cfg

theorem SameRest.refl (s : State) : SameRest s s := ⟨rfl, rfl, rfl, rfl, rfl, rfl⟩

theorem SameRest.trans {s t u : State} (h : SameRest s t) (k : SameRest t u) : SameRest s u :=
  ⟨k.buf.trans h.buf, k.mode.trans h.mode, k.faultMark.trans h.faultMark,
    k.refusedMark.trans h.refusedMark, k.pending.trans h.pending, k.cfg.trans h.cfg⟩

theorem SameRest.emit (e : Event) (s : State) : SameRest s (emit e s) := ⟨rfl, rfl, rfl, rfl, rfl, rfl⟩

/-- Storing a segment leaves BUF, MODE, the marks and what is not block state alone. -/
theorem insertSegment_sameRest {g : Segment} {s t : State} (h : insertSegment g s = .next t) :
    SameRest s t := by
  rcases insertSegment_cases g s with ⟨_, he⟩ | ⟨_, _, he⟩ | ⟨_, _, _, he⟩ | ⟨_, _, _, he⟩ <;>
    rw [he] at h
  · cases h; exact .emit _ _
  · cases h
  · unfold completeFrame at h
    split at h <;> cases h
    exact ⟨rfl, rfl, rfl, rfl, rfl, rfl⟩
  · cases h
    exact ⟨by simp, by simp, by simp, by simp, by simp, by simp⟩

/-- Storing a segment emits at most one event: its frame, or InvalidSegment (R191). -/
theorem insertSegment_events {g : Segment} {s t : State} (h : insertSegment g s = .next t) :
    t.response = s.response ∨
    t.response = .events (Response.eventList s.response ++ [.err .invalidSegment]) ∨
    ∃ f : ReassembledFrame, f.frameID = g.frameID ∧
      t.response = .events (Response.eventList s.response ++ [.frame f]) := by
  rcases insertSegment_cases g s with ⟨_, he⟩ | ⟨_, _, he⟩ | ⟨_, _, _, he⟩ | ⟨_, _, _, he⟩ <;>
    rw [he] at h
  · cases h; exact .inr (.inl rfl)
  · cases h
  · unfold completeFrame at h
    split at h <;> cases h
    exact .inr (.inr ⟨_, rfl, rfl⟩)
  · cases h; exact .inl (by simp)

/-- What storing a segment does to TABLE and DISCARD_COUNT: one link, counted where it evicts (R198, R252). -/
theorem insertSegment_link {g : Segment} {s t : State} (hm : 1 ≤ s.cfg.maxFrames)
    (h : insertSegment g s = .next t) : ∃ b, TableLink s.cfg.maxFrames s.table (some g) b t.table ∧
      t.discardCount = s.discardCount + BitVec.ofNat 32 ([b].count true) := by
  rcases insertSegment_cases g s with ⟨_, he⟩ | ⟨_, _, he⟩ | ⟨_, _, hc, he⟩ | ⟨_, _, _, he⟩ <;>
    rw [he] at h
  · cases h
    exact ⟨false, .own rfl (fun hl => absurd hl (lt_irrefl _)) (fun A h1 h2 => by simp [h1] at h2), by simp⟩
  · cases h
  · unfold completeFrame at h
    split at h <;> cases h
    refine ⟨false, .own (by simp [removeFrame]) (fun hl => ?_) (fun A h1 _ => ?_), by simp⟩
    · exact absurd (List.length_filter_le _ _) (not_le.mpr hl)
    · simpa [Completes, storedRecord, currentSegments, effectiveTotal, h1] using hc
  · cases h
    cases hl : lookupFrame g.frameID s.table with
    | some A =>
      refine ⟨false, .own ?_ ?_ ?_, by simp [keepRecord, hl]⟩ <;> simp only [keepRecord, hl]
      · exact replaceFrame_others rfl
      · simp [replaceFrame]
      · intro B _ h2
        have hr : storedRecord g s ∈ replaceFrame (storedRecord g s) s.table :=
          List.mem_map.mpr ⟨A, (lookupFrame_some hl).1, if_pos (lookupFrame_some hl).2⟩
        exact absurd rfl (lookupFrame_eq_none_iff.mp h2 _ hr)
    | none =>
      have hr : storedRecord g s = ⟨g.frameID, g.totalSegments, [(g.segmentID, g.data)]⟩ := by
        simp [storedRecord, effectiveTotal, currentSegments, hl, storeSlot]
      rw [keepRecord_created hl, hr]
      unfold evict
      split
      · next hlen =>
        cases hT : s.table with
        | nil => simp [hT] at hlen; omega
        | cons B R =>
          refine ⟨true, .evicting ?_ (hT ▸ hl), by simp⟩
          simp [hT] at hlen ⊢; omega
      · next hlen =>
        refine ⟨false, .own (by simp [List.filter_append]) (fun _ => by simpa using hlen) ?_, by simp⟩
        intro A h1
        simp [hl] at h1

/-- What routing a Data payload does to TABLE and DISCARD_COUNT (R160, R252). -/
theorem route_link {p : List Byte} {s t : State} (hm : 1 ≤ s.cfg.maxFrames) (h : route p s = .next t) :
    ∃ b, TableLink s.cfg.maxFrames s.table (carriedSegment p) b t.table ∧
      t.discardCount = s.discardCount + BitVec.ofNat 32 ([b].count true) := by
  unfold route at h
  split at h
  · next hp => simpa [carriedSegment, hp, Except.toOption] using insertSegment_link hm h
  · next hp =>
    cases h
    exact ⟨false, by simpa [carriedSegment, hp, Except.toOption] using .nothing s.table, by simp⟩

/-- More bytes behind BUF, and events before those of the response: neither is looked at. -/
def shift (es : List Event) (b : List Byte) (s : State) : State :=
  { s with buf := s.buf ++ b, response := .events (es ++ Response.eventList s.response) }

@[simp] theorem shift_buf (es : List Event) (b : List Byte) (s : State) :
    (shift es b s).buf = s.buf ++ b := rfl
@[simp] theorem shift_mode (es : List Event) (b : List Byte) (s : State) :
    (shift es b s).mode = s.mode := rfl
@[simp] theorem shift_response (es : List Event) (b : List Byte) (s : State) :
    (shift es b s).response = .events (es ++ Response.eventList s.response) := rfl

theorem emit_shift (e : Event) (es : List Event) (b : List Byte) (s : State) :
    emit e (shift es b s) = shift es b (emit e s) := by
  simp [emit, shift, List.append_assoc]

/-- Storing a segment depends on TABLE and the configuration alone. -/
theorem insertSegment_shift (g : Segment) (es : List Event) (b : List Byte) (s : State) :
    insertSegment g (shift es b s) =
      andThen (insertSegment g s) fun t => .next (shift es b t) := by
  have ha : Accepted g (shift es b s) ↔ Accepted g s := Iff.rfl
  have hc : Completes g (shift es b s) ↔ Completes g s := Iff.rfl
  rcases insertSegment_cases g s with ⟨h1, he⟩ | ⟨h1, h2, he⟩ | ⟨h1, h2, h3, he⟩ | ⟨h1, h2, h3, he⟩
  · rw [he, insertSegment_rejected (mt ha.mp h1)]
    simp [emit_shift]
  · rw [he, insertSegment_storeFull (ha.mpr h1) h2]
    rfl
  · rw [he, insertSegment_complete (ha.mpr h1) h2 (hc.mpr h3)]
    unfold completeFrame
    have : storedRecord g (shift es b s) = storedRecord g s := rfl
    rw [this]
    split
    · simp [emit, shift, List.append_assoc]
    · rfl
  · rw [he, insertSegment_incomplete (ha.mpr h1) h2 (mt hc.mp h3)]
    have h4 : storedRecord g (shift es b s) = storedRecord g s := rfl
    have h5 : lookupFrame g.frameID (shift es b s).table = lookupFrame g.frameID s.table := rfl
    simp only [keepRecord, h4, h5, andThen_next]
    split
    · rfl
    · unfold evict shift
      dsimp only
      split_ifs <;> rfl

end Sys2Proof.Machine
end

