-- ==== Sys2Proof/Laws/Deframer.lean ====
section
/-!
SUPPORT. What the deframer can do (R150 to R168), once: routing and running a message, running a
candidate, one mode step, and FEED's loop as a recursion without its bound.
-/

namespace Sys2Proof.Machine

variable {s t u : State} {c p : List Byte} {m : Message}

/-! ## Routing and messages -/

theorem route_sameRest (h : route p s = .next t) : SameRest s t := by
  unfold route at h
  split at h
  · exact insertSegment_sameRest h
  · cases h; exact .emit _ _

theorem route_keeps (hi : s.TableInv) (h : route p s = .next t) : t.TableInv := by
  unfold route at h
  split at h
  · exact insertSegment_keeps hi h
  · cases h; exact emit_tableInv _ hi

theorem route_ne_fault (hi : s.TableInv) (r : Fault) : route p s ≠ .fault r := by
  unfold route
  split
  · exact insertSegment_ne_fault hi r
  · simp

theorem route_refused {r : Refusal} (h : route p s = .refused r) : r = .storeFull := by
  unfold route at h
  split at h
  · exact (insertSegment_refused h).1
  · cases h

theorem parsePayload_error {e : ErrorKind} (h : parsePayload p = .error e) : e = .invalidSegment := by
  unfold parsePayload at h
  split at h <;> cases h
  rfl

theorem parsePayload_short : parsePayload p = .error .invalidSegment ↔ p.length < 4 := by
  match p with
  | [] | [_] | [_, _] | [_, _, _] => simp [parsePayload]
  | a :: b :: c :: d :: r => simp [parsePayload]

/-- Reading back the payload that carries a segment (R86). -/
theorem parsePayload_segmentPayload (g : Segment) : parsePayload (segmentPayload g) = .ok g := by
  simp only [segmentPayload, be16Bytes_eq, List.cons_append, List.nil_append, parsePayload,
    be16_of_bytes]

theorem parsePayload_ok {g : Segment} (h : parsePayload p = .ok g) : p = segmentPayload g := by
  unfold parsePayload at h
  split at h
  · cases h; simp [segmentPayload, be16Bytes_be16]
  · cases h

/-- Running a message: it is emitted, and a Data message is then routed (R126 to R128, R156). -/
theorem runMessage_eq (m : Message) (s : State) :
    runMessage m s = if m.type = .data then route m.payload (emit (.msg m) s)
      else .next (emit (.msg m) s) := by
  obtain ⟨ty, p⟩ := m
  cases ty <;> rfl

theorem runMessage_sameRest (h : runMessage m s = .next t) : SameRest s t := by
  rw [runMessage_eq] at h
  split at h
  · exact (SameRest.emit _ _).trans (route_sameRest h)
  · cases h; exact .emit _ _

theorem runMessage_keeps (hi : s.TableInv) (h : runMessage m s = .next t) : t.TableInv := by
  rw [runMessage_eq] at h
  split at h
  · exact route_keeps (emit_tableInv _ hi) h
  · cases h; exact emit_tableInv _ hi

/-- Without a Data message the reassembler is not touched. -/
theorem runMessage_table (hm : m.type ≠ .data) (h : runMessage m s = .next t) :
    t.table = s.table ∧ t.discardCount = s.discardCount := by
  rw [runMessage_eq, if_neg hm] at h
  cases h; exact ⟨rfl, rfl⟩

/-! ## Candidates -/

theorem runCandidate_sameRest (h : runCandidate c s = .next t) : SameRest s t := by
  unfold runCandidate at h
  repeat' split at h
  · exact runMessage_sameRest h
  all_goals first | (cases h; exact .emit _ _) | cases h

theorem runCandidate_keeps (hi : s.TableInv) (h : runCandidate c s = .next t) : t.TableInv := by
  unfold runCandidate at h
  repeat' split at h
  · exact runMessage_keeps hi h
  all_goals first | (cases h; exact emit_tableInv _ hi) | cases h

theorem runCandidate_refused {r : Refusal} (h : runCandidate c s = .refused r) : r = .storeFull := by
  unfold runCandidate at h
  repeat' split at h
  · rw [runMessage_eq] at h
    split at h
    · exact route_refused h
    · cases h
  all_goals cases h

theorem runCandidate_ne_fault (hi : s.TableInv) (hc : Framed c) (r : Fault) :
    runCandidate c s ≠ .fault r := by
  obtain ⟨b0, b1, b2, rest, rfl, hl⟩ := hc
  have hlen : rest.length = (be16 b1 b2).toNat + 1 := by simpa using hl
  unfold runCandidate
  cases hd : decodeWire (b0 :: b1 :: b2 :: rest) with
  | ok m =>
    simp only [runMessage_eq]
    split
    · exact route_ne_fault (emit_tableInv _ hi) r
    · simp
  | error e =>
    rcases decodeWire_framed_error hlen hd with rfl | rfl <;> simp

/-- The events of a candidate (R156, R157, R159, R160). -/
theorem runCandidate_events (h : runCandidate c s = .next t) :
    ∃ es, CandidateEvents c es ∧
      t.response = .events (Response.eventList s.response ++ es) := by
  unfold runCandidate at h
  split at h
  · next m hm =>
    rw [runMessage_eq] at h
    split at h
    · next hd =>
      unfold route at h
      split at h
      · next g hg =>
        rcases insertSegment_events h with hr | hr | ⟨f, hf, hr⟩
        · exact ⟨_, .good c m hm, hr⟩
        · exact ⟨_, .rejected c m hm hd, by rw [hr]; simp⟩
        · exact ⟨_, .completed c m g f hm hd hg hf, by rw [hr]; simp⟩
      · next e he =>
        cases h
        obtain rfl := parsePayload_error he
        exact ⟨_, .rejected c m hm hd, by simp⟩
    · cases h; exact ⟨_, .good c m hm, rfl⟩
  · next he => cases h; exact ⟨_, .bad c _ he (.inl rfl), rfl⟩
  · next he => cases h; exact ⟨_, .bad c _ he (.inr rfl), rfl⟩
  all_goals cases h

theorem runCandidate_shift (c : List Byte) (es : List Event) (b : List Byte) (s : State) :
    runCandidate c (shift es b s) = andThen (runCandidate c s) fun t => .next (shift es b t) := by
  unfold runCandidate
  split
  · next m _ =>
    rw [runMessage_eq, runMessage_eq]
    split
    · rw [emit_shift]
      unfold route
      split
      · exact insertSegment_shift _ _ _ _
      · simp [emit_shift]
    · simp [emit_shift]
  all_goals simp [emit_shift]

/-! ## One mode step -/

/-- BUF begins with the header that MODE has latched (R33, R153). -/
def Latched (s : State) : Prop :=
  ∀ t len, s.mode = .awaitingPayload t len →
    ∃ b1 b2 rest, s.buf = t :: b1 :: b2 :: rest ∧ be16 b1 b2 = len

theorem latched_of_ok (h : deframerOk s.buf s.mode = true) : Latched s := by
  intro t len hm
  rw [hm] at h
  unfold deframerOk at h
  split at h
  · cases ‹Mode.awaitingPayload t len = _›
  · next heq =>
    cases heq
    split at h
    · next b0 b1 b2 rest hb =>
      simp only [Bool.and_eq_true, decide_eq_true_eq] at h
      exact ⟨b1, b2, rest, by rw [hb, h.1.1], h.1.2⟩
    · cases h

/-- Each repetition of FEED's loop makes this number smaller (R152). -/
def loopMeasure (s : State) : Nat :=
  s.buf.length + match s.mode with
    | .awaitingHeader => 1
    | .awaitingPayload _ _ => 0

/-- Where the loop exits, the wait conditions of R153 and R154 hold. -/
theorem modeStep_none : modeStep s = none ↔
    (s.mode = .awaitingHeader ∧ s.buf.length ≤ 2) ∨
    ∃ t len, s.mode = .awaitingPayload t len ∧ s.buf.length < len.toNat + 4 := by
  unfold modeStep
  cases hm : s.mode with
  | awaitingHeader =>
    match hb : s.buf with
    | [] | [_] | [_, _] => simp
    | b0 :: b1 :: b2 :: r => simp
  | awaitingPayload t len =>
    by_cases h : s.buf.length < len.toNat + 4 <;> simp [h]

/-- Every repetition of the loop: the header is latched, or a candidate is run (R153, R155). -/
theorem modeStep_some {o : Result} (h : modeStep s = some o) :
    (s.mode = .awaitingHeader ∧ ∃ b0 b1 b2 rest, s.buf = b0 :: b1 :: b2 :: rest ∧
      o = .next { s with mode := .awaitingPayload b0 (be16 b1 b2) }) ∨
    ∃ t len, s.mode = .awaitingPayload t len ∧ len.toNat + 4 ≤ s.buf.length ∧
      o = runCandidate (s.buf.take (len.toNat + 4))
        { s with buf := s.buf.drop (len.toNat + 4), mode := .awaitingHeader } := by
  unfold modeStep at h
  cases hm : s.mode with
  | awaitingHeader =>
    left
    simp only [hm] at h
    split at h
    · next b0 b1 b2 rest hb =>
      simp only [Option.some.injEq] at h
      exact ⟨rfl, b0, b1, b2, rest, hb, h.symm⟩
    · cases h
  | awaitingPayload t len =>
    right
    simp only [hm] at h
    split at h
    · cases h
    · next hl =>
      simp only [Option.some.injEq] at h
      refine ⟨t, len, rfl, by omega, ?_⟩
      rw [← h, extract, takeBuf, if_pos (by omega)]

theorem modeStep_measure (h : modeStep s = some (.next t)) : loopMeasure t < loopMeasure s := by
  rcases modeStep_some h with ⟨hm, b0, b1, b2, rest, hb, ho⟩ | ⟨ty, len, hm, hl, ho⟩
  · cases ho; simp [loopMeasure, hm]
  · have hr := runCandidate_sameRest ho.symm
    have hb := hr.buf
    have hm' := hr.mode
    simp only at hb hm'
    simp only [loopMeasure, hb, hm', hm, List.length_drop]
    omega

theorem modeStep_keeps (hi : s.TableInv) (h : modeStep s = some (.next t)) : t.TableInv := by
  rcases modeStep_some h with ⟨_, b0, b1, b2, rest, _, ho⟩ | ⟨ty, len, _, _, ho⟩
  · cases ho; exact hi.of_eq rfl rfl
  · exact runCandidate_keeps (by exact hi.of_eq rfl rfl) ho.symm

theorem modeStep_latched (h : modeStep s = some (.next t)) : Latched t := by
  rcases modeStep_some h with ⟨_, b0, b1, b2, rest, hb, ho⟩ | ⟨ty, len, _, _, ho⟩
  · cases ho
    intro ty len hm
    simp only [Mode.awaitingPayload.injEq] at hm
    exact ⟨b1, b2, rest, by simp [hb, hm.1], hm.2⟩
  · intro ty' len' hm
    have := (runCandidate_sameRest ho.symm).mode
    simp only [hm, reduceCtorEq] at this

/-- The candidate of a latched header is framed by it (R155, R166). -/
theorem candidate_framed {ty : Byte} {len : Half} (hl : Latched s) (hm : s.mode = .awaitingPayload ty len)
    (hb : len.toNat + 4 ≤ s.buf.length) : Framed (s.buf.take (len.toNat + 4)) := by
  obtain ⟨b1, b2, rest, he, hv⟩ := hl ty len hm
  refine ⟨ty, b1, b2, rest.take (len.toNat + 1), by rw [he]; simp, ?_⟩
  rw [List.length_take, hv]
  omega

theorem modeStep_shift {o : Result} (es : List Event) (b : List Byte) (h : modeStep s = some o) :
    modeStep (shift es b s) = some (andThen o fun t => .next (shift es b t)) := by
  rcases modeStep_some h with ⟨hm, b0, b1, b2, rest, hb, rfl⟩ | ⟨ty, len, hm, hl, rfl⟩
  · simp [modeStep, shift, hm, hb]
  · have h1 : ¬ (shift es b s).buf.length < len.toNat + 4 := by simp; omega
    have h2 : len.toNat + 4 ≤ (shift es b s).buf.length := by simp; omega
    have h3 := runCandidate_shift (s.buf.take (len.toNat + 4)) es b
      { s with buf := s.buf.drop (len.toNat + 4), mode := .awaitingHeader }
    rw [← h3]
    unfold modeStep
    simp only [shift_mode, hm, if_neg h1, extract, takeBuf, if_pos h2]
    simp only [shift_buf, List.take_append_of_le_length hl, List.drop_append_of_le_length hl]
    rfl

/-! ## FEED's loop without its bound -/

/-- FEED's loop, run to its end (R152). -/
def feedRun (s : State) : Result := feedLoop (loopBound s) s

theorem feedLoop_bound {n k : Nat} (hn : loopMeasure s < n) (hk : loopMeasure s < k) :
    feedLoop n s = feedLoop k s := by
  induction n generalizing s k with
  | zero => omega
  | succ n ih =>
    cases k with
    | zero => omega
    | succ k =>
      simp only [feedLoop]
      cases h : modeStep s with
      | none => rfl
      | some o =>
        cases o with
        | next t =>
          have := modeStep_measure h
          exact ih (by omega) (by omega)
        | fault f => rfl
        | refused r => rfl

theorem loopMeasure_lt_bound (s : State) : loopMeasure s < loopBound s := by
  simp only [loopMeasure, loopBound]
  split <;> omega

/-- The loop unrolled once (R152). -/
theorem feedRun_eq (s : State) : feedRun s = match modeStep s with
    | none => .next s
    | some o => andThen o feedRun := by
  have hb := loopMeasure_lt_bound s
  unfold feedRun
  show feedLoop (s.buf.length + 1 + 1) s = _
  rw [feedLoop]
  cases h : modeStep s with
  | none => rfl
  | some o =>
    cases o with
    | next t =>
      have := modeStep_measure h
      simp only [andThen_next]
      exact feedLoop_bound (by simp only [loopBound] at hb; omega) (loopMeasure_lt_bound t)
    | fault f => rfl
    | refused r => rfl

theorem execFeed_eq (c : List Byte) (s : State) :
    execFeed c s = feedRun (appendBuf c (beginEvents s)) := rfl

theorem feedRun_stop (h : modeStep s = none) : feedRun s = .next s := by rw [feedRun_eq, h]

theorem feedRun_go {o : Result} (h : modeStep s = some o) : feedRun s = andThen o feedRun := by
  rw [feedRun_eq, h]

/-- A property that one repetition keeps holds at the end of the loop. -/
theorem feedRun_induct {P : State → Prop} (hstep : ∀ s t, P s → modeStep s = some (.next t) → P t)
    (hs : P s) (h : feedRun s = .next t) : P t ∧ modeStep t = none := by
  induction hn : loopMeasure s using Nat.strong_induction_on generalizing s with
  | _ n ih =>
    cases hm : modeStep s with
    | none =>
      rw [feedRun_stop hm] at h
      cases h; exact ⟨hs, hm⟩
    | some o =>
      rw [feedRun_go hm] at h
      obtain ⟨u, rfl, hu⟩ := andThen_eq_next.mp h
      exact ih _ (hn ▸ modeStep_measure hm) (hstep s u hs hm) hu rfl

/-- At the end of the loop the deframer invariant R33 holds, if the latched header did (R158). -/
theorem deframerOk_of_stop (hl : Latched s) (h : modeStep s = none) : deframerOk s.buf s.mode = true := by
  rcases modeStep_none.mp h with ⟨hm, hb⟩ | ⟨ty, len, hm, hb⟩
  · simp [deframerOk, hm, hb]
  · obtain ⟨b1, b2, rest, he, hv⟩ := hl ty len hm
    rw [hm]
    simp only [deframerOk, he, hv, Bool.and_eq_true, decide_eq_true_eq, true_and]
    rw [← he]; omega

theorem modeStep_none_of_ok (h : deframerOk s.buf s.mode = true) : modeStep s = none := by
  rw [modeStep_none]
  cases hm : s.mode with
  | awaitingHeader => left; simpa [deframerOk, hm] using h
  | awaitingPayload ty len =>
    right
    obtain ⟨b1, b2, rest, he, hv⟩ := latched_of_ok h ty len hm
    rw [hm] at h
    simp only [deframerOk, he, Bool.and_eq_true, decide_eq_true_eq] at h
    exact ⟨ty, len, rfl, by rw [he]; omega⟩

/-- The loop with more bytes behind BUF is the loop, and then the loop on with those bytes (R163). -/
theorem feedRun_shift (es : List Event) (b : List Byte) (s : State) :
    feedRun (shift es b s) = andThen (feedRun s) fun t => feedRun (shift es b t) := by
  induction hn : loopMeasure s using Nat.strong_induction_on generalizing s with
  | _ n ih =>
    cases hm : modeStep s with
    | none => rw [feedRun_stop hm, andThen_next]
    | some o =>
      rw [feedRun_go (modeStep_shift es b hm), feedRun_go hm, andThen_assoc, andThen_assoc]
      cases o with
      | next t => exact ih _ (hn ▸ modeStep_measure hm) t rfl
      | fault f => rfl
      | refused r => rfl

theorem feedRun_refused {r : Refusal} (h : feedRun s = .refused r) : r = .storeFull := by
  induction hn : loopMeasure s using Nat.strong_induction_on generalizing s with
  | _ n ih =>
    cases hm : modeStep s with
    | none => rw [feedRun_stop hm] at h; cases h
    | some o =>
      rw [feedRun_go hm] at h
      cases o with
      | next t => exact ih _ (hn ▸ modeStep_measure hm) h rfl
      | fault f => cases h
      | refused r' =>
        cases h
        rcases modeStep_some hm with ⟨_, b0, b1, b2, rest, _, ho⟩ | ⟨ty, len, _, _, ho⟩
        · cases ho
        · exact runCandidate_refused ho.symm

theorem feedRun_ne_fault (hi : s.TableInv) (hl : Latched s) (r : Fault) : feedRun s ≠ .fault r := by
  induction hn : loopMeasure s using Nat.strong_induction_on generalizing s with
  | _ n ih =>
    cases hm : modeStep s with
    | none => rw [feedRun_stop hm]; simp
    | some o =>
      rw [feedRun_go hm]
      cases o with
      | next t => exact ih _ (hn ▸ modeStep_measure hm) (modeStep_keeps hi hm) (modeStep_latched hm) rfl
      | fault f =>
        rcases modeStep_some hm with ⟨_, b0, b1, b2, rest, _, ho⟩ | ⟨ty, len, hmode, hb, ho⟩
        · cases ho
        · exact absurd ho.symm (runCandidate_ne_fault
            (by exact hi.of_eq rfl rfl) (candidate_framed hl hmode hb) f)
      | refused r' => simp

/-- What FEED's loop did to the bytes: it split them into framed candidates, each with its events in stream
order, and the bytes that stay in BUF (R69, R159, R166). -/
theorem feedRun_stream (hl : Latched s) (hr : ∃ fs, s.response = .events fs) (h : feedRun s = .next t) :
    ∃ (cs : List (List Byte)) (gs : List (List Event)),
      s.buf = cs.flatten ++ t.buf ∧ (∀ c ∈ cs, Framed c) ∧ List.Forall₂ CandidateEvents cs gs ∧
      t.response = .events (Response.eventList s.response ++ gs.flatten) := by
  induction hn : loopMeasure s using Nat.strong_induction_on generalizing s with
  | _ n ih =>
    cases hm : modeStep s with
    | none =>
      rw [feedRun_stop hm] at h
      cases h
      obtain ⟨fs, hr⟩ := hr
      exact ⟨[], [], by simp, by simp, .nil, by simp [hr]⟩
    | some o =>
      rw [feedRun_go hm] at h
      obtain ⟨u, rfl, hu⟩ := andThen_eq_next.mp h
      have hlt := hn ▸ modeStep_measure hm
      rcases modeStep_some hm with ⟨_, b0, b1, b2, rest, _, ho⟩ | ⟨ty, len, hmode, hb, ho⟩
      · obtain ⟨cs, gs, h1, h2, h3, h4⟩ := ih _ hlt (modeStep_latched hm)
          (by cases ho; exact hr) hu rfl
        cases ho
        exact ⟨cs, gs, h1, h2, h3, h4⟩
      · obtain ⟨es, hes, hresp⟩ := runCandidate_events ho.symm
        obtain ⟨cs, gs, h1, h2, h3, h4⟩ := ih _ hlt (modeStep_latched hm) ⟨_, hresp⟩ hu rfl
        have hbuf := (runCandidate_sameRest ho.symm).buf
        refine ⟨s.buf.take (len.toNat + 4) :: cs, es :: gs, ?_, ?_, .cons hes h3, ?_⟩
        · simp only [List.flatten_cons, List.append_assoc, ← h1, hbuf, List.take_append_drop]
        · intro c hc
          rcases List.mem_cons.mp hc with rfl | hc
          · exact candidate_framed hl hmode hb
          · exact h2 c hc
        · rw [h4, hresp]
          simp

/-! ## FEED as one operation -/

/-- The instruction of a message is run as the deframer runs it. -/
theorem exec_instr (m : Message) (s : State) : exec m.instr s = runMessage m s := by
  obtain ⟨t, p⟩ := m
  cases t <;> rfl

/-- The bytes of a chunk stand behind a latched header, which stays latched (R151). -/
theorem latched_append (h : Latched s) : Latched (appendBuf c (beginEvents s)) := by
  intro ty len hm
  obtain ⟨b1, b2, rest, hb, hv⟩ := h ty len hm
  exact ⟨b1, b2, rest ++ c, by simp [hb], hv⟩

/-- The fields that FEED's loop leaves alone. -/
theorem feedRun_rest (h : feedRun s = .next t) : t.faultMark = s.faultMark ∧
    t.refusedMark = s.refusedMark ∧ t.cfg = s.cfg ∧ t.pending = s.pending := by
  refine (feedRun_induct (P := fun t => t.faultMark = s.faultMark ∧ t.refusedMark = s.refusedMark ∧
    t.cfg = s.cfg ∧ t.pending = s.pending) ?_ ⟨rfl, rfl, rfl, rfl⟩ h).1
  intro u v hu huv
  rcases modeStep_some huv with ⟨_, b0, b1, b2, rest, _, ho⟩ | ⟨ty, len, hmode, hb, ho⟩
  · cases ho; exact hu
  · have hr := runCandidate_sameRest ho.symm
    exact ⟨hr.faultMark.trans hu.1, hr.refusedMark.trans hu.2.1, hr.cfg.trans hu.2.2.1,
      hr.pending.trans hu.2.2.2⟩

/-- FEED's loop ends with the deframer invariant (R158) and, if it had them, the invariants of TABLE. -/
theorem feedRun_keeps (hl : Latched s) (h : feedRun s = .next t) :
    deframerOk t.buf t.mode = true ∧ (s.TableInv → t.TableInv) := by
  obtain ⟨h1, h2⟩ := feedRun_induct (P := Latched) (fun _ _ _ huv => modeStep_latched huv) hl h
  exact ⟨deframerOk_of_stop h1 h2,
    fun hi => (feedRun_induct (fun _ _ hu huv => modeStep_keeps hu huv) hi h).1⟩

end Sys2Proof.Machine
end

