-- ==== Sys2Proof/Laws/PerInstr.lean ====
section
/-!
SUPPORT. The family EncodedLength: the total length of every encoding (R80, R96).
-/

namespace Sys2Proof.Laws.EncodedLength

/-- The total length R96 gives a command and R80 gives a message. -/
def totalLength : Instr → Nat
  | .encode _ payload => 4 + payload.length
  | .decode bytes => 5 + bytes.length
  | .feed chunk => 5 + chunk.length
  | .feedByte _ => 2
  | .parseSegment payload => 3 + payload.length
  | .addSegment _ _ _ data => 7 + data.length
  | .reset => 1
  | .msgControl payload => payload.length + 4
  | .msgData payload => payload.length + 4
  | .msgError payload => payload.length + 4
  | .msgAck payload => payload.length + 4
  | .msgInfo payload => payload.length + 4

/-- The encoding of an instruction has the length its layout gives it. -/
def Statement (i : Instr) : Prop := (encode i).length = totalLength i

theorem encode (tc : Byte) (payload : List Byte) : Statement (.encode tc payload) := by
  simp [Statement, totalLength, Sys2Proof.encode, be16Bytes]; omega

theorem decode (bytes : List Byte) : Statement (.decode bytes) := by
  simp [Statement, totalLength, Sys2Proof.encode, be32Bytes]; omega

theorem feed (chunk : List Byte) : Statement (.feed chunk) := by
  simp [Statement, totalLength, Sys2Proof.encode, be32Bytes]; omega

theorem feedByte (b : Byte) : Statement (.feedByte b) := rfl

theorem parseSegment (payload : List Byte) : Statement (.parseSegment payload) := by
  simp [Statement, totalLength, Sys2Proof.encode, be16Bytes]; omega

theorem addSegment (frameID : Half) (segmentID totalSegments : Byte) (data : List Byte) :
    Statement (.addSegment frameID segmentID totalSegments data) := by
  simp [Statement, totalLength, Sys2Proof.encode, be16Bytes]; omega

theorem reset : Statement .reset := rfl

theorem msgControl (payload : List Byte) : Statement (.msgControl payload) :=
  serialize_length _ payload

theorem msgData (payload : List Byte) : Statement (.msgData payload) := serialize_length _ payload

theorem msgError (payload : List Byte) : Statement (.msgError payload) := serialize_length _ payload

theorem msgAck (payload : List Byte) : Statement (.msgAck payload) := serialize_length _ payload

theorem msgInfo (payload : List Byte) : Statement (.msgInfo payload) := serialize_length _ payload

end Sys2Proof.Laws.EncodedLength
end

