-- ==== Sys2Proof/Laws/Step.lean ====
section
/-!
SUPPORT. What one step can do, once: the cases of `issue` and of `step` (R8, R95 to R97, R247).
-/

namespace Sys2Proof.Machine

variable {s t : State}

theorem endStep_next {o : Result} : endStep o = .next t ↔ o = .next t ∧ t.consistent = true := by
  cases o with
  | next u =>
    simp only [endStep]
    split
    · next h => constructor
                · intro he; cases he; exact ⟨rfl, h⟩
                · intro he; exact he.1
    · next h => constructor
                · intro he; cases he
                · rintro ⟨he, hc⟩; cases he; exact absurd hc h
  | fault f => simp [endStep]
  | refused r => simp [endStep]

theorem endStep_refused {o : Result} {r : Refusal} : endStep o = .refused r ↔ o = .refused r := by
  cases o with
  | next u => simp only [endStep]; split <;> simp
  | fault f => simp [endStep]
  | refused r' => simp [endStep]

/-- Every instruction that answers a next state keeps the invariants of TABLE. -/
theorem exec_tableInv {i : Instr} (hi : s.TableInv) (h : exec i s = .next t) : t.TableInv := by
  have hb : (beginEvents s).TableInv := hi.of_eq rfl rfl
  have hfeed : ∀ c, exec (.feed c) s = .next t → t.TableInv := fun c hc =>
    (feedRun_induct (fun _ _ hu huv => modeStep_keeps hu huv)
      (s := appendBuf c (beginEvents s)) (hi.of_eq rfl rfl) hc).1
  cases i with
  | encode tc p =>
    simp only [exec, execEncode] at h
    split_ifs at h
    cases h; exact hi.of_eq rfl rfl
  | decode bs => simp only [exec, execDecode] at h; split at h <;> cases h <;> exact hi.of_eq rfl rfl
  | feed c => exact hfeed c h
  | feedByte b => exact hfeed [b] h
  | parseSegment p =>
    simp only [exec, execParseSegment] at h
    split at h <;> cases h <;> exact hi.of_eq rfl rfl
  | addSegment f k n d => exact insertSegment_keeps hb h
  | reset => cases h; exact ⟨by simp, by simp, by simp, fits_mono (Nat.zero_le _) hi.stored, hi.tracks⟩
  | msgData p => exact route_keeps (emit_tableInv _ hi) h
  | msgControl p => cases h; exact emit_tableInv _ hi
  | msgError p => cases h; exact emit_tableInv _ hi
  | msgAck p => cases h; exact emit_tableInv _ hi
  | msgInfo p => cases h; exact emit_tableInv _ hi

/-- Operations in order keep the invariants of TABLE. -/
theorem performAll_tableInv {is : List Instr} (hi : s.TableInv) (h : performAll is s = .next t) :
    t.TableInv := by
  induction is generalizing s t with
  | nil => cases h; exact hi.of_eq rfl rfl
  | cons i is ih =>
    simp only [performAll, andThen_eq_next] at h
    obtain ⟨u, hu, v, hv, h⟩ := h
    cases h
    exact (ih (exec_tableInv hi hu) hv).of_eq rfl rfl

/-- A step answers a next state in two ways only: nothing is pending, or the first pending command ran. -/
theorem step_next (h : step s = .next t) : s.faultMark = none ∧
    ((s.pending = [] ∧ t = s) ∨
      ∃ c cs i, s.pending = c :: cs ∧ decodeCommand c = .ok i ∧
        exec i { s with pending := cs } = .next t ∧ t.consistent = true) := by
  unfold step issue at h
  cases hf : s.faultMark with
  | some f => simp [hf] at h
  | none =>
    refine ⟨rfl, ?_⟩
    simp only [hf] at h
    cases hp : s.pending with
    | nil =>
      simp only [hp] at h
      cases h; exact .inl ⟨rfl, rfl⟩
    | cons c cs =>
      right
      simp only [hp] at h
      cases hd : decodeCommand c with
      | ok i =>
        simp only [hd] at h
        obtain ⟨h1, h2⟩ := endStep_next.mp h
        exact ⟨c, cs, i, rfl, hd, h1, h2⟩
      | error r => cases r <;> simp [hd] at h

/-- A step is refused in three ways only: no opcode, no whole command, or the operation itself. -/
theorem step_refused {r : Refusal} (h : step s = .refused r) :
    ∃ c cs, s.pending = c :: cs ∧
      ((decodeCommand c = .error .illegalOpcode ∧ r = .illegalCommand) ∨
       ((decodeCommand c = .error .cutShort ∨ decodeCommand c = .error .bytesLeftOver) ∧
          r = .notACommand) ∨
       ∃ i, decodeCommand c = .ok i ∧ exec i { s with pending := cs } = .refused r) := by
  unfold step issue at h
  cases hf : s.faultMark with
  | some f => simp [hf] at h
  | none =>
    simp only [hf] at h
    cases hp : s.pending with
    | nil => simp [hp] at h
    | cons c cs =>
      refine ⟨c, cs, rfl, ?_⟩
      simp only [hp] at h
      cases hd : decodeCommand c with
      | ok i =>
        simp only [hd] at h
        exact .inr (.inr ⟨i, rfl, endStep_refused.mp h⟩)
      | error e =>
        cases e <;> simp only [hd, Host.Outcome.refused.injEq] at h <;> simp [← h]

end Sys2Proof.Machine
end

