-- ==== Sys2Proof/Tests/Slice0.lean ====
section
/-!
SUPPORT. Tests of the model: ill-formed terms, words written out from the encodings, vectors of
spec/95_test_vectors.md (each expected result is that file's), and, for every statement with
hypotheses, a witness that meets them.
-/

namespace Sys2Proof.Tests

open Sys2Proof Sys2Proof.Machine

/-- A block with nothing stored and the given configuration. -/
def blank (maxFrames : Nat) (storeCap : Option Nat) : State :=
  { State.reset with cfg := { maxFrames := maxFrames, storeCap := storeCap } }

/-- The answers of an operation that has them: response, BUF, MODE, TABLE and DISCARD_COUNT. -/
def outcome : Result → Option (Response × List Byte × Mode × List FrameAssembly × Count)
  | .next t => some (t.response, t.buf, t.mode, t.table, t.discardCount)
  | .fault _ => none
  | .refused _ => none

/-- The reason of a refusal. -/
def refusal : Result → Option Refusal
  | .next _ => none
  | .fault _ => none
  | .refused r => some r

/-! ## WellFormed: an ill-formed term for each check -/

/-- One byte more than a 16-bit count holds. -/
abbrev tooLong : List Byte := List.replicate 65536 0

theorem test_illformed_encode : (Instr.encode 1 tooLong).wellFormed = false := by
  simp only [Instr.wellFormed, List.length_replicate]; decide
theorem test_illformed_decode : (Instr.decode (List.replicate (2 ^ 32) 0)).wellFormed = false := by
  simp only [Instr.wellFormed, List.length_replicate]; decide
theorem test_illformed_feed : (Instr.feed (List.replicate (2 ^ 32) 0)).wellFormed = false := by
  simp only [Instr.wellFormed, List.length_replicate]; decide
theorem test_illformed_parseSegment : (Instr.parseSegment tooLong).wellFormed = false := by
  simp only [Instr.wellFormed, List.length_replicate]; decide
theorem test_illformed_addSegment : (Instr.addSegment 1 0 2 tooLong).wellFormed = false := by
  simp only [Instr.wellFormed, List.length_replicate]; decide
theorem test_illformed_msgControl : (Instr.msgControl tooLong).wellFormed = false := by
  simp only [Instr.wellFormed, List.length_replicate]; decide
theorem test_illformed_msgData : (Instr.msgData tooLong).wellFormed = false := by
  simp only [Instr.wellFormed, List.length_replicate]; decide
theorem test_illformed_msgError : (Instr.msgError tooLong).wellFormed = false := by
  simp only [Instr.wellFormed, List.length_replicate]; decide
theorem test_illformed_msgAck : (Instr.msgAck tooLong).wellFormed = false := by
  simp only [Instr.wellFormed, List.length_replicate]; decide
theorem test_illformed_msgInfo : (Instr.msgInfo tooLong).wellFormed = false := by
  simp only [Instr.wellFormed, List.length_replicate]; decide
theorem test_wellformed_largest :
    (Instr.msgInfo (List.replicate 65535 0xFF)).wellFormed = true := by
  simp only [Instr.wellFormed, List.length_replicate]; decide

/-! ## Decoding: words written out from R96 and R80 (P1 to P4, section 2 of the vectors) -/

theorem test_word_encode :
    decodeCommand [0x01, 0x02, 0x00, 0x06, 0x00, 0x07, 0x01, 0x02, 0x11, 0x22] =
      .ok (.encode 0x02 [0x00, 0x07, 0x01, 0x02, 0x11, 0x22]) := by decide
theorem test_word_decode :
    decodeCommand [0x02, 0x00, 0x00, 0x00, 0x06, 0x01, 0x00, 0x02, 0x02, 0x00, 0x01] =
      .ok (.decode [0x01, 0x00, 0x02, 0x02, 0x00, 0x01]) := by decide
theorem test_word_feed :
    decodeCommand [0x03, 0x00, 0x00, 0x00, 0x02, 0x02, 0x00] = .ok (.feed [0x02, 0x00]) := by decide
theorem test_word_feedByte : decodeCommand [0x04, 0x02] = .ok (.feedByte 0x02) := by decide
theorem test_word_parseSegment :
    decodeCommand [0x05, 0x00, 0x05, 0x00, 0x01, 0x01, 0x02, 0xCC] =
      .ok (.parseSegment [0x00, 0x01, 0x01, 0x02, 0xCC]) := by decide
/-- P4, row 3. -/
theorem test_word_addSegment :
    decodeCommand [0x06, 0x00, 0x09, 0x00, 0x02, 0x00, 0x01, 0xDE] =
      .ok (.addSegment 9 0 2 [0xDE]) := by decide
/-- A field of ADD_SEGMENT never stands in for a neighbour: five different bytes. -/
theorem test_word_addSegment_fields :
    decodeCommand [0x06, 0x12, 0x34, 0x56, 0x78, 0x00, 0x01, 0x9A] =
      .ok (.addSegment 0x1234 0x56 0x78 [0x9A]) := by decide
theorem test_word_reset : decodeCommand [0x07] = .ok .reset := by decide
theorem test_word_msgControl :
    decodeMessage [0x01, 0x00, 0x02, 0x02, 0x00, 0x01] = .ok (.msgControl [0x02, 0x00]) := by decide
theorem test_word_msgData :
    decodeMessage [0x02, 0x00, 0x05, 0x00, 0x01, 0x00, 0x02, 0xAA, 0xAE] =
      .ok (.msgData [0x00, 0x01, 0x00, 0x02, 0xAA]) := by decide
theorem test_word_msgError :
    decodeMessage [0x03, 0x00, 0x03, 0x10, 0x20, 0x30, 0x00] = .ok (.msgError [0x10, 0x20, 0x30]) := by
  decide
theorem test_word_msgAck : decodeMessage [0x04, 0x00, 0x00, 0x04] = .ok (.msgAck []) := by decide
theorem test_word_msgInfo :
    decodeMessage [0x05, 0x00, 0x01, 0xFF, 0xFB] = .ok (.msgInfo [0xFF]) := by decide
/-- R97: the opcode bytes on both sides of the table. -/
theorem test_word_illegal :
    decodeCommand [0x00] = .error .illegalOpcode ∧ decodeCommand [0x08] = .error .illegalOpcode ∧
      decodeCommand [0xFF] = .error .illegalOpcode := by decide
/-- R283: one byte too few, one byte too many. -/
theorem test_word_count :
    decodeCommand [0x05, 0x00, 0x02, 0x00] = .error .cutShort ∧
      decodeCommand [0x05, 0x00, 0x02, 0x00, 0x01, 0x07] = .error .bytesLeftOver := by decide

/-- The rows of the opcode table that are commands (the operands are zero bytes). -/
theorem test_table_words :
    decodeTableWord 8 0x01 = some (.encode 0 []) ∧ decodeTableWord 8 0x02 = some (.decode []) ∧
      decodeTableWord 8 0x03 = some (.feed []) ∧ decodeTableWord 8 0x04 = some (.feedByte 0) ∧
      decodeTableWord 8 0x05 = some (.parseSegment []) ∧
      decodeTableWord 8 0x06 = some (.addSegment 0 0 0 []) ∧ decodeTableWord 8 0x07 = some .reset ∧
      decodeTableWord 8 0x08 = none := by decide
/-- The word placed for the fetch is the whole command, and the next step runs it. -/
theorem test_withFetchWord :
    ((blank 1 none).withFetchWord 8 0x04).pending = [[0x04, 0x00]] ∧
      outcome (step ((blank 1 none).withFetchWord 8 0x04)) =
        some (.events [], [0x00], .awaitingHeader, [], 0) := by decide

/-! ## MessageCodec (sections 2 and 3 of the vectors) -/

theorem test_encode_control :
    outcome (exec (.encode 0x01 [0x02, 0x00]) (blank 1 none)) =
      some (.bytes [0x01, 0x00, 0x02, 0x02, 0x00, 0x01], [], .awaitingHeader, [], 0) := by decide
theorem test_encode_unknown :
    refusal (exec (.encode 0x06 []) (blank 1 none)) = some .unknownEncodeType := by decide
/-- Two flips that cancel are not detected (R125). -/
theorem test_decode_cancelling :
    outcome (exec (.decode [0x01, 0x00, 0x02, 0x03, 0x01, 0x01]) (blank 1 none)) =
      some (.message { type := .control, payload := [0x03, 0x01] }, [], .awaitingHeader, [], 0) := by
  decide
/-- The order of the checks (R123), one input each. -/
theorem test_decode_errors :
    decodeWire [0x00, 0x00, 0x00] = .error .truncated ∧
      decodeWire [0x00, 0x00, 0x02, 0x02, 0x00, 0x01] = .error .unknownType ∧
      decodeWire [0x01, 0x00, 0x02, 0x02, 0x00, 0x01, 0x00] = .error .lengthMismatch ∧
      decodeWire [0x01, 0x00, 0x00, 0x00] = .error .checksumMismatch := by decide

/-! ## StreamDeframer (section 4 of the vectors) -/

/-- The corrupted length byte misframes the next Ack and leaves a false header (R166, R284). -/
theorem test_feed_misframed :
    outcome (exec (.feed [0x01, 0x00, 0x03, 0x02, 0x00, 0x01, 0x04, 0x00, 0x00, 0x04, 0x04, 0x00, 0x00,
        0x04]) (blank 1 none)) =
      some (.events [.err .checksumMismatch], [0x00, 0x00, 0x04, 0x04, 0x00, 0x00, 0x04],
        .awaitingPayload 0x00 4, [], 0) := by decide
/-- A candidate of unknown type is framed by its own length. -/
theorem test_feed_unknown :
    outcome (exec (.feed [0x07, 0x00, 0x01, 0xAA, 0x00, 0x04, 0x00, 0x00, 0x04]) (blank 1 none)) =
      some (.events [.err .unknownType, .msg { type := .ack, payload := [] }], [], .awaitingHeader, [],
        0) := by decide
/-- The last of four single bytes. -/
theorem test_feedByte_last :
    outcome (exec (.feedByte 0x04)
        { blank 1 none with buf := [0x04, 0x00, 0x00], mode := .awaitingPayload 0x04 0 }) =
      some (.events [.msg { type := .ack, payload := [] }], [], .awaitingHeader, [], 0) := by decide
theorem test_feedByte_first :
    outcome (exec (.feedByte 0x02) (blank 2 none)) =
      some (.events [], [0x02], .awaitingHeader, [], 0) := by decide
/-- A Data message whose segment is its whole frame (R160). -/
theorem test_msgData_frame :
    outcome (exec (.msgData [0x00, 0x01, 0x00, 0x01, 0x77]) (beginEvents (blank 1 none))) =
      some (.events [.msg { type := .data, payload := [0x00, 0x01, 0x00, 0x01, 0x77] },
        .frame { frameID := 1, payload := [0x77] }], [], .awaitingHeader, [], 0) := by decide
theorem test_msgData_short :
    outcome (exec (.msgData [0x00, 0x09, 0x00]) (beginEvents (blank 1 none))) =
      some (.events [.msg { type := .data, payload := [0x00, 0x09, 0x00] }, .err .invalidSegment], [],
        .awaitingHeader, [], 0) := by decide
theorem test_msg_plain :
    outcome (exec (.msgControl [0x01, 0x00]) (beginEvents (blank 1 none))) =
        some (.events [.msg { type := .control, payload := [0x01, 0x00] }], [], .awaitingHeader, [], 0) ∧
      outcome (exec (.msgError []) (beginEvents (blank 1 none))) =
        some (.events [.msg { type := .error, payload := [] }], [], .awaitingHeader, [], 0) ∧
      outcome (exec (.msgAck []) (beginEvents (blank 1 none))) =
        some (.events [.msg { type := .ack, payload := [] }], [], .awaitingHeader, [], 0) ∧
      outcome (exec (.msgInfo [0x55]) (beginEvents (blank 1 none))) =
        some (.events [.msg { type := .info, payload := [0x55] }], [], .awaitingHeader, [], 0) :=
  ⟨by decide, by decide, by decide, by decide⟩
/-- P3, row 2: a bad candidate, then a Data message that evicts frame 1. -/
theorem test_feed_evicts :
    outcome (exec (.feed [0x05, 0x00, 0x01, 0x55, 0xD1, 0x02, 0x00, 0x05, 0x00, 0x02, 0x00, 0x02, 0xB0,
        0xB7]) { blank 1 none with table := [⟨1, 2, [(0, [0xA0])]⟩] }) =
      some (.events [.err .checksumMismatch,
          .msg { type := .data, payload := [0x00, 0x02, 0x00, 0x02, 0xB0] }], [], .awaitingHeader,
        [⟨2, 2, [(0, [0xB0])]⟩], 1) := by decide

/-! ## SegmentReassembler and RESET (sections 5 and 6 of the vectors) -/

theorem test_parseSegment :
    outcome (exec (.parseSegment [0x00, 0x01, 0x01, 0x02, 0xCC]) (blank 1 none)) =
      some (.segment ⟨1, 1, 2, [0xCC]⟩, [], .awaitingHeader, [], 0) := by decide
theorem test_parseSegment_short :
    outcome (exec (.parseSegment [0x00, 0x01, 0x01]) (blank 1 none)) =
      some (.error .invalidSegment, [], .awaitingHeader, [], 0) := by decide
/-- The first-seen total wins (R195). -/
theorem test_addSegment_completes :
    outcome (exec (.addSegment 6 1 5 [0x02]) { blank 4 none with table := [⟨6, 2, [(0, [0x01])]⟩] }) =
      some (.events [.frame { frameID := 6, payload := [0x01, 0x02] }], [], .awaitingHeader, [], 0) := by
  decide
/-- The eviction count wraps (R252). -/
theorem test_addSegment_wraps :
    outcome (exec (.addSegment 1 0 2 [])
        { blank 1 none with table := [⟨2, 2, [(0, [])]⟩], discardCount := 0xFFFFFFFF }) =
      some (.events [], [], .awaitingHeader, [⟨1, 2, [(0, [])]⟩], 0) := by decide
/-- An overwrite counts the replaced bytes out (R200). -/
theorem test_storeCap :
    refusal (exec (.addSegment 1 1 2 [3, 4])
        { blank 4 (some 3) with table := [⟨1, 2, [(0, [1, 2])]⟩] }) = some .storeFull ∧
      outcome (exec (.addSegment 1 0 2 [3, 4, 5])
          { blank 4 (some 3) with table := [⟨1, 2, [(0, [1, 2])]⟩] }) =
        some (.events [], [], .awaitingHeader, [⟨1, 2, [(0, [3, 4, 5])]⟩], 0) := by decide
/-- P4, row 4. -/
theorem test_reset :
    outcome (exec .reset { blank 2 none with buf := [0x02, 0x00], table := [⟨9, 2, [(0, [0xDE])]⟩] }) =
      some (.none, [], .awaitingHeader, [], 0) := by decide

/-! ## Steps, marks, spellings -/

/-- A refused command sets REFUSED, is no longer pending, and the block goes on (R41, R97). -/
theorem test_advance_refused :
    (advance { blank 1 none with pending := [[0x08], [0x07]] }).refusedMark = some .illegalCommand ∧
      (advance { blank 1 none with pending := [[0x08], [0x07]] }).pending = [[0x07]] := by decide
/-- A faulted block takes no step (R247). -/
theorem test_faulted :
    (advance { blank 1 none with faultMark := some .internalInvariant, pending := [[0x07]] }).faultMark =
      some .internalInvariant := by decide
/-- A step that would end with R33 false faults (R247). -/
theorem test_consistency :
    outcome (step { blank 1 none with buf := [1, 2, 3], pending := [[0x05, 0x00, 0x00]] }) = none ∧
      refusal (step { blank 1 none with buf := [1, 2, 3], pending := [[0x05, 0x00, 0x00]] }) = none := by
  decide
/-- R98, by hand from its tags and counts. -/
theorem test_spelling :
    spellEvents [.msg { type := .ack, payload := [] }, .err .invalidSegment,
        .frame { frameID := 0x0102, payload := [0xAA] }] =
      [0x01, 0x04, 0x00, 0x00, 0x04, 0x02, 0x05, 0x03, 0x01, 0x02, 0x00, 0x00, 0x00, 0x01, 0xAA] ∧
      spellResponse (.bytes [0x04, 0x00, 0x00, 0x04]) = [0x00, 0x00, 0x00, 0x04, 0x04, 0x00, 0x00, 0x04] ∧
      spellResponse (.segment ⟨0x0102, 3, 4, [5]⟩) = [0x04, 0x01, 0x02, 0x03, 0x04, 0x00, 0x01, 0x05] := by
  decide
theorem test_assembler :
    readLine "ENCODE Control, [0x02, 0x00]" = some [.encode 0x01 [0x02, 0x00]] ∧
      readLine "SEND_MTU 512" = some [.encode 0x01 [0x02, 0x00]] ∧
      readLine "ADD_SEGMENT 9, 1, 2, [0xAD]" = some [.addSegment 9 1 2 [0xAD]] ∧
      readLine "FEED_EACH [4, 0x10]" = some [.feedByte 4, .feedByte 0x10] ∧
      readLine "FEED []" = some [.feed []] ∧ readLine "RESET" = some [.reset] ∧
      readLine "FEED [256]" = none ∧ readLine "RESET 1" = none := by decide
theorem test_assembler_segment :
    readLine "SEND_SEGMENT 7, 1, 2, [0x33, 0x44]" =
      some [.encode 0x02 [0x00, 0x07, 0x01, 0x02, 0x33, 0x44]] ∧
      readProgram ["DECODE [1]", "FEED_BYTE 2", "PARSE_SEGMENT [0]"] =
        some [.decode [1], .feedByte 2, .parseSegment [0]] := by decide

/-! ## Witnesses: for each statement with hypotheses, states and operands that meet them -/

/-- A table of one record, frame 7 with segment 1 of 3. -/
def oneRecord (maxFrames : Nat) (storeCap : Option Nat) : State :=
  { blank maxFrames storeCap with table := [⟨7, 3, [(1, [0xAA, 0xBB])]⟩] }

theorem blank_tableInv (n : Nat) (cap : Option Nat) : (blank (n + 1) cap).TableInv := by
  refine ⟨by simp [blank, State.reset], by simp [blank, State.reset], by simp [blank, State.reset], ?_,
    by simp [blank, State.reset]⟩
  cases cap <;> simp [blank, State.reset, fits]

theorem blank_inv (n : Nat) (cap : Option Nat) : (blank (n + 1) cap).Inv := ⟨blank_tableInv n cap, rfl⟩

theorem oneRecord_inv (cap : Option Nat) (h : fits ⟨2, cap⟩ 2 = true) : (oneRecord 2 cap).Inv :=
  ⟨⟨by intro A hA; simp only [oneRecord, List.mem_singleton] at hA; subst hA; decide,
    List.nodup_singleton _, Nat.le_succ 1, h, Nat.le_succ 1⟩, rfl⟩

theorem witness_CommandRoundTrip :
    (Instr.encode 0x06 (List.replicate 65535 0)).wellFormed = true ∧
      (Instr.encode 0x06 (List.replicate 65535 0)).space = .command ∧
      (Instr.feed (List.replicate (2 ^ 32 - 1) 0)).wellFormed = true ∧
      (Instr.feed (List.replicate (2 ^ 32 - 1) 0)).space = .command ∧
      Instr.reset.wellFormed = true ∧ Instr.reset.space = .command := by
  simp only [Instr.wellFormed, Instr.space, List.length_replicate]; decide
theorem witness_CommandBytesHaveOneMeaning :
    decodeCommand [0x05, 0x00, 0x01, 0xFF] = .ok (.parseSegment [0xFF]) := by decide
theorem witness_WireMessageRoundTrip :
    (Instr.msgInfo (List.replicate 65535 0)).wellFormed = true ∧
      (Instr.msgInfo (List.replicate 65535 0)).space = .wire := by
  simp only [Instr.wellFormed, Instr.space, List.length_replicate]; decide
theorem witness_WireBytesHaveOneMeaning :
    decodeWire [0x03, 0x00, 0x03, 0x10, 0x20, 0x30, 0x00] = .ok ⟨.error, [0x10, 0x20, 0x30]⟩ := by decide
theorem witness_ChecksumIsXorOfEveryByteBefore :
    (List.replicate 65535 (0x5A : Byte)).length ≤ 65535 ∧
      decodeWire [0x02, 0x00, 0x00, 0x02] = .ok ⟨.data, []⟩ :=
  ⟨by simp only [List.length_replicate]; decide, by decide⟩
theorem witness_XorfoldIgnoresByteOrder : [(1 : Byte), 2, 3].Perm [3, 1, 2] := by decide
theorem witness_IllegalOpcodesAreRefused :
    ({ blank 1 none with pending := [[0x00]] } : State).faultMark = none ∧ (8 : Nat) ≤ (0x08 : Byte).toNat ∧
      8 ≤ (0xFF : Byte).toNat := by decide
theorem witness_MalformedCommandsAreRefused :
    (Instr.feedByte 3).wellFormed = true ∧ (Instr.feedByte 3).space = .command ∧
      [(0x04 : Byte)] ++ [3] = encode (.feedByte 3) ∧
      [(0x04 : Byte), 3, 9] = encode (.feedByte 3) ++ [9] ∧
      ({ blank 1 none with pending := [[0x04]] } : State).faultMark = none := by decide
theorem witness_PseudoOperationsAreReadBack : (List.replicate 65531 (0 : Byte)).length ≤ 65531 := by
  simp only [List.length_replicate]; decide
theorem witness_EventSpellingIsUnambiguous :
    ([] : List Byte).length ≤ 65535 ∧ [(1 : Byte)].length < 2 ^ 32 ∧
      spellEvents [.msg ⟨.ack, []⟩, .frame ⟨1, [1]⟩, .err .unknownType] =
        spellEvents ([.msg ⟨.ack, []⟩, .frame ⟨1, [1]⟩] ++ [.err .unknownType]) := by decide
theorem witness_EncodeSerializes :
    (0x01 : Byte) ∈ [(0x01 : Byte), 0x02, 0x03, 0x04, 0x05] ∧
      (0x05 : Byte) ∈ [(0x01 : Byte), 0x02, 0x03, 0x04, 0x05] ∧
      (0x00 : Byte) ∉ [(0x01 : Byte), 0x02, 0x03, 0x04, 0x05] ∧
      (0x06 : Byte) ∉ [(0x01 : Byte), 0x02, 0x03, 0x04, 0x05] ∧
      (List.replicate 65535 (0 : Byte)).length ≤ 65535 ∧ 65535 < (List.replicate 65536 (0 : Byte)).length := by
  refine ⟨by decide, by decide, by decide, by decide, ?_, ?_⟩ <;>
    (simp only [List.length_replicate]; decide)
/-- Truncated at 3 bytes; then an unknown type, a wrong length, a wrong checksum, a message, each at the
least length of 4 bytes. -/
theorem witness_DecodeReportsFirstFailure :
    ([0x01, 0x00, 0x00] : List Byte).length < 4 ∧
      ([0x06, 0x00, 0x00, 0x06] : List Byte).getD 0 0 ∉ [(0x01 : Byte), 0x02, 0x03, 0x04, 0x05] ∧
      ([0x01, 0x00, 0x01, 0x01] : List Byte).length ≠ 1 + 4 ∧
      xorfold (([0x01, 0x00, 0x00, 0x00] : List Byte).take 3) ≠ 0x00 ∧
      xorfold (([0x01, 0x00, 0x00, 0x01] : List Byte).take 3) = 0x01 := by decide
theorem witness_DecodeOfEncodeIsTheMessage : (List.replicate 65535 (0 : Byte)).length ≤ 65535 := by
  simp only [List.length_replicate]; decide
/-- Every clause: offsets 1, 2, 3 and 5, the type byte to no code and to another code, and a second flip. -/
theorem witness_BitFlipsAreReportedByOffset :
    decodeWire [0x01, 0x00, 0x02, 0x02, 0x00, 0x01] = .ok ⟨.control, [0x02, 0x00]⟩ ∧
      ([0x01, 0x00, 0x02, 0x02, 0x00, 0x01] : List Byte).length = 6 ∧
      ([0x01, 0x00, 0x02, 0x02, 0x00, 0x01] : List Byte).set 0 0x00 =
        [0x00, 0x00, 0x02, 0x02, 0x00, 0x01] ∧ (0x01 : Byte) ^^^ (1 : Byte) <<< 0 = 0x00 ∧
      (0x01 : Byte) ^^^ (1 : Byte) <<< 1 = 0x03 ∧
      (0x03 : Byte) ∈ [(0x01 : Byte), 0x02, 0x03, 0x04, 0x05] := by decide
theorem witness_PureOperationsTouchNoState :
    (∃ tc p, Instr.encode 0x01 [] = .encode tc p) ∧ (∃ bs, Instr.decode [] = .decode bs) ∧
      ∃ p, Instr.parseSegment [] = .parseSegment p := ⟨⟨_, _, rfl⟩, ⟨_, rfl⟩, ⟨_, rfl⟩⟩

theorem witness_PlainMessagesAreOnlyEmitted :
    (beginEvents (blank 1 none)).response = .events [] := rfl
/-- A payload of 3 bytes, one of 4 whose segment is rejected, and one the store has no room for. -/
theorem witness_DataMessagesAreRouted :
    ([0, 7, 0] : List Byte).length < 4 ∧ (7 : Half).toNat = (0 : Byte).toNat * 256 + (7 : Byte).toNat ∧
      outcome (exec (.addSegment 7 0 0 []) (beginEvents (blank 1 (some 0)))) =
        some (.events [.err .invalidSegment], [], .awaitingHeader, [], 0) ∧
      refusal (exec (.addSegment 7 0 2 [1]) (beginEvents (blank 1 (some 0)))) = some .storeFull := by
  decide
theorem witness_DataMessagesComplete :
    (blank 1 (some 4)).TableInv ∧ (beginEvents (blank 1 none)).response = .events [] ∧
      fits ⟨1, some 4⟩ (usage [] + ([0, 7, 0, 2] : List Byte).length) = true :=
  ⟨blank_tableInv 0 _, rfl, by decide⟩

theorem witness_FeedCompletes :
    (oneRecord 2 (some 3)).Inv ∧
      fits (oneRecord 2 (some 3)).cfg (usage (oneRecord 2 (some 3)).table +
        (oneRecord 2 (some 3)).buf.length + ([0x04] : List Byte).length) = true :=
  ⟨oneRecord_inv _ (by decide), by decide⟩
/-- Two candidates in one chunk, from a BUF in the middle of a header. -/
theorem witness_FeedEventsAreInStreamOrder :
    deframerOk [0x01, 0x00] .awaitingHeader = true ∧
      outcome (exec (.feed [0x00, 0x01, 0x04, 0x00, 0x00, 0x04])
          { blank 1 none with buf := [0x01, 0x00] }) =
        some (.events [.msg ⟨.control, []⟩, .msg ⟨.ack, []⟩], [], .awaitingHeader, [], 0) := by decide
theorem witness_FeedIsChunkInvariant :
    deframerOk [0x04, 0x00, 0x00] (.awaitingPayload 0x04 0) = true ∧
      deframerOk [] .awaitingHeader = true := by decide
theorem witness_FeedLeavesNoCompleteCandidate :
    deframerOk [] .awaitingHeader = true ∧
      outcome (exec (.feed [0x02, 0xFF, 0xFF]) (blank 1 none)) =
        some (.events [], [0x02, 0xFF, 0xFF], .awaitingPayload 0x02 65535, [], 0) := by decide
theorem witness_FeedLoopEnds :
    deframerOk [0x04, 0x00] .awaitingHeader = true ∧
      outcome (exec (.feed [0x00, 0x04, 0x07]) { blank 1 none with buf := [0x04, 0x00] }) =
        some (.events [.msg ⟨.ack, []⟩], [0x07], .awaitingHeader, [], 0) := by decide
theorem witness_FeedOfNothingChangesNothing :
    deframerOk [0x07, 0x01] .awaitingHeader = true := by decide
/-- Two bytes; three bytes, of which nothing of the payload; a candidate one byte short. -/
theorem witness_FeedWaitsForMissingBytes :
    deframerOk [0x07] .awaitingHeader = true ∧ ([0x07] ++ [0x00] : List Byte).length ≤ 2 ∧
      ([0x07] ++ [0x00, 0x01] : List Byte) = 0x07 :: 0x00 :: 0x01 :: [] ∧
      ([0x07] ++ [0x00, 0x01, 0xAA] : List Byte) = 0x07 :: 0x00 :: 0x01 :: [0xAA] ∧
      ([0xAA] : List Byte).length ≤ (1 : Half).toNat ∧
      (1 : Half).toNat = (0 : Byte).toNat * 256 + (1 : Byte).toNat := by decide
theorem witness_FeedRunsAcceptedMessages :
    deframerOk [0x04, 0x00] .awaitingHeader = true ∧
      (Message.instr ⟨.ack, []⟩).wellFormed = true ∧
      ([0x04, 0x00] ++ [0x00, 0x04, 0x01] : List Byte) = encode (Message.instr ⟨.ack, []⟩) ++ [0x01] := by
  decide
theorem witness_FeedReportsBadCandidates :
    deframerOk [0x07, 0x00] .awaitingHeader = true ∧ Framed [0x07, 0x00, 0x01, 0xAA, 0x00] ∧
      decodeWire [0x07, 0x00, 0x01, 0xAA, 0x00] = .error .unknownType ∧
      ([0x07, 0x00] ++ [0x01, 0xAA, 0x00, 0x04] : List Byte) = [0x07, 0x00, 0x01, 0xAA, 0x00] ++ [0x04] ∧
      Framed [0x01, 0x00, 0x00, 0x00] ∧ decodeWire [0x01, 0x00, 0x00, 0x00] = .error .checksumMismatch :=
  ⟨by decide, ⟨_, _, _, _, rfl, by decide⟩, by decide, by decide, ⟨_, _, _, _, rfl, by decide⟩, by decide⟩
/-- A bad candidate; two bytes; a header whose payload and checksum are one byte short. -/
theorem witness_FeedNeverEmitsTruncated :
    outcome (exec (.feed [0x01, 0x00, 0x00, 0x00]) (blank 1 none)) =
      some (.events [.err .checksumMismatch], [], .awaitingHeader, [], 0) ∧
      deframerOk [0x01] .awaitingHeader = true ∧ ([0x01] ++ [0x00] : List Byte).length ≤ 2 ∧
      ([0x01] ++ [0x00, 0x00] : List Byte) = 0x01 :: 0x00 :: 0x00 :: [] := by decide
theorem witness_FramedCandidatesFitTheirLength :
    Framed [0x04, 0x00, 0x00, 0x04] ∧ decodeWire [0x04] = .error .truncated ∧
      decodeWire [0x04, 0x00, 0x01, 0x04] = .error .lengthMismatch :=
  ⟨⟨_, _, _, _, rfl, by decide⟩, by decide, by decide⟩
theorem witness_FeedByteCompletesAtMostOne :
    deframerOk [0x04, 0x00, 0x00] (.awaitingPayload 0x04 0) = true ∧
      outcome (exec (.feedByte 0x04)
          { blank 1 none with buf := [0x04, 0x00, 0x00], mode := .awaitingPayload 0x04 0 }) =
        some (.events [.msg ⟨.ack, []⟩], [], .awaitingHeader, [], 0) := by decide
/-- Each row of R168: two and three bytes in AwaitingHeader; one byte short, then complete with a message,
with an unknown type and with a wrong checksum in AwaitingPayload. -/
theorem witness_ModeMachineRows :
    ([0x04, 0x00] : List Byte).length < 3 ∧ ([0x04, 0x00, 0x00] : List Byte) = 0x04 :: 0x00 :: 0x00 :: [] ∧
      ([0x04, 0x00, 0x00] : List Byte).length < (0 : Half).toNat + 4 ∧
      (0 : Half).toNat + 4 ≤ ([0x04, 0x00, 0x00, 0x04] : List Byte).length ∧
      decodeWire (([0x04, 0x00, 0x00, 0x04] : List Byte).take 4) = .ok ⟨.ack, []⟩ ∧
      decodeWire (([0x06, 0x00, 0x00, 0x06] : List Byte).take 4) = .error .unknownType ∧
      decodeWire (([0x04, 0x00, 0x00, 0x05] : List Byte).take 4) = .error .checksumMismatch := by decide
theorem witness_FeedFrame :
    (∀ m, Event.msg m ∈ [Event.msg ⟨.ack, []⟩] → m.type ≠ .data) ∧
      outcome (exec (.feed [0x04, 0x00, 0x00, 0x04]) (blank 1 none)) =
        some (.events [.msg ⟨.ack, []⟩], [], .awaitingHeader, [], 0) :=
  ⟨by intro m hm; simp at hm; subst hm; decide, by decide⟩
theorem witness_AnsweredMessagesAreWellFormed :
    outcome (exec (.feed [0x05, 0x00, 0x01, 0xFF, 0xFB]) (blank 1 none)) =
        some (.events [.msg ⟨.info, [0xFF]⟩], [], .awaitingHeader, [], 0) ∧
      outcome (exec (.decode [0x05, 0x00, 0x01, 0xFF, 0xFB]) (blank 1 none)) =
        some (.message ⟨.info, [0xFF]⟩, [], .awaitingHeader, [], 0) := ⟨by decide, by decide⟩

theorem witness_ParseSegmentSplitsThePayload :
    ([0, 1, 1] : List Byte).length < 4 ∧ ([0, 1, 1, 2] : List Byte) = 0 :: 1 :: 1 :: 2 :: [] := by decide
/-- The boundaries of both checks: `k = t`, and `k` equal to the recorded total under a larger operand. -/
theorem witness_OutOfRangeSegmentsAreRejected :
    (2 : Byte).toNat ≤ (2 : Byte).toNat ∧ (0 : Byte).toNat ≤ (0 : Byte).toNat ∧
      lookupFrame 7 (oneRecord 2 none).table = some ⟨7, 3, [(1, [0xAA, 0xBB])]⟩ ∧
      (3 : Byte).toNat ≤ (3 : Byte).toNat ∧
      outcome (exec (.addSegment 7 3 5 []) (oneRecord 2 none)) =
        some (.events [.err .invalidSegment], [], .awaitingHeader, (oneRecord 2 none).table, 0) := by decide
/-- Room for one more record; no room, with the oldest to evict; and the clause of no eviction. -/
theorem witness_NewRecordsEvictTheOldest :
    (0 : Byte).toNat < (2 : Byte).toNat ∧ (2 : Byte).toNat ≠ 1 ∧
      lookupFrame 8 (oneRecord 2 (some 3)).table = none ∧
      fits (oneRecord 2 (some 3)).cfg (usage (oneRecord 2 (some 3)).table + ([1] : List Byte).length) =
        true ∧
      (oneRecord 2 (some 3)).table.length < (oneRecord 2 (some 3)).cfg.maxFrames ∧
      (oneRecord 1 (some 3)).table = ⟨7, 3, [(1, [0xAA, 0xBB])]⟩ :: [] ∧
      (oneRecord 1 (some 3)).cfg.maxFrames ≤ (oneRecord 1 (some 3)).table.length ∧
      outcome (exec (.addSegment 8 0 1 [4]) (oneRecord 1 (some 3))) =
        some (.events [.frame ⟨8, [4]⟩], [], .awaitingHeader, (oneRecord 1 (some 3)).table, 0) :=
  ⟨by decide, by decide, by decide, by decide, by decide, by decide, by decide, by decide⟩
/-- An empty slot that leaves the record incomplete, and a slot that is overwritten. -/
theorem witness_SegmentsAreStoredInTheirRecord :
    (oneRecord 2 (some 3)).TableInv ∧ (2 : Byte).toNat < (9 : Byte).toNat ∧
      lookupFrame 7 (oneRecord 2 (some 3)).table = some ⟨7, 3, [(1, [0xAA, 0xBB])]⟩ ∧
      (2 : Byte).toNat < (3 : Byte).toNat ∧ slot 2 [(1, [0xAA, 0xBB])] = none ∧ 1 + 1 < (3 : Byte).toNat ∧
      slot 1 [(1, [0xAA, 0xBB])] = some [0xAA, 0xBB] ∧
      fits (oneRecord 2 (some 3)).cfg (usage (oneRecord 2 (some 3)).table - 2 + 3) = true :=
  ⟨(oneRecord_inv _ (by decide)).toTableInv, by decide, by decide, by decide, by decide, by decide,
    by decide, by decide⟩
theorem witness_FullFramesAreEmitted :
    (oneRecord 2 (some 3)).TableInv ∧
      ({ blank 2 none with table := [⟨6, 2, [(0, [0x01])]⟩] } : State).TableInv ∧
      lookupFrame 6 [⟨6, 2, [(0, [0x01])]⟩] = some ⟨6, 2, [(0, [0x01])]⟩ ∧ slot 1 [(0, [0x01])] = none ∧
      [((0 : Byte), [(0x01 : Byte)])].length + 1 = (2 : Byte).toNat ∧ (1 : Byte).toNat < (5 : Byte).toNat ∧
      (1 : Byte).toNat = 1 ∧ (0 : Byte).toNat = 0 ∧ lookupFrame 8 (oneRecord 2 (some 3)).table = none ∧
      outcome (exec (.addSegment 7 2 3 []) (oneRecord 2 none)) =
        some (.events [], [], .awaitingHeader, [⟨7, 3, [(1, [0xAA, 0xBB]), (2, [])]⟩], 0) :=
  ⟨(oneRecord_inv _ (by decide)).toTableInv, ⟨by decide, by decide, by decide, by decide, by decide⟩,
    by decide, by decide, by decide, by decide, by decide, by decide, by decide, by decide⟩
/-- One byte over the capacity, with a fresh record and with an overwrite; and an unbounded store. -/
theorem witness_StoreFullIsRefused :
    (0 : Byte).toNat < (2 : Byte).toNat ∧ lookupFrame 8 (oneRecord 2 (some 2)).table = none ∧
      2 < usage (oneRecord 2 (some 2)).table + ([1] : List Byte).length ∧
      lookupFrame 7 (oneRecord 2 (some 2)).table = some ⟨7, 3, [(1, [0xAA, 0xBB])]⟩ ∧
      2 < usage (oneRecord 2 (some 2)).table - ((slot 1 [(1, [0xAA, 0xBB])]).getD []).length +
        ([1, 2, 3] : List Byte).length ∧ (oneRecord 2 none).cfg.storeCap = none := by decide
/-- A step that is refused, with REFUSED clear. -/
theorem witness_StoreFullIsRefused_step :
    decodeCommand [0x06, 0x00, 0x08, 0x00, 0x02, 0x00, 0x01, 0xAA] = .ok (.addSegment 8 0 2 [0xAA]) ∧
      ({ oneRecord 2 (some 2) with
        pending := [[0x06, 0x00, 0x08, 0x00, 0x02, 0x00, 0x01, 0xAA]] } : State).faultMark = none ∧
      (oneRecord 2 (some 2)).refusedMark = none ∧
      refusal (exec (.addSegment 8 0 2 [0xAA]) { oneRecord 2 (some 2) with
        pending := [[0x06, 0x00, 0x08, 0x00, 0x02, 0x00, 0x01, 0xAA]] }) = some .storeFull :=
  ⟨by decide, by decide, by decide, by decide⟩
theorem witness_ReassemblyIgnoresSegmentOrder :
    (blank 1 (some 3)).TableInv ∧ ([2, 0] ++ [1]).Perm (List.range [[(1 : Byte)], [2], [3]].length) ∧
      lookupFrame 1 (blank 1 (some 3)).table = none ∧
      fits (blank 1 (some 3)).cfg (usage (blank 1 (some 3)).table + [[(1 : Byte)], [2], [3]].flatten.length) =
        true ∧ ([] ++ [0]).Perm (List.range [[(1 : Byte)]].length) :=
  ⟨blank_tableInv 0 _, by decide, by decide, by decide, by decide⟩
/-- A run with other operations in between: a segment of another frame, and a byte fed. -/
theorem witness_ReassemblyIgnoresSegmentOrder_between :
    (blank 2 none).TableInv ∧ ([1] ++ [0]).Perm (List.range [[(1 : Byte)], [2]].length) ∧
      lookupFrame 1 (blank 2 none).table = none ∧
      ∃ rs t, SegmentsAdded 1 [[1], [2]] (blank 2 none) rs t ∧ rs.map Prod.fst = [1] ++ [0] := by
  let b : State := { blank 2 none with response := .events [] }
  let s₁ : State := { b with table := [⟨1, 2, [(1, [2])]⟩] }
  let s₂ : State := { b with buf := [0x02], table := [⟨1, 2, [(1, [2])]⟩, ⟨9, 2, [(0, [7])]⟩] }
  let s₃ : State :=
    { b with buf := [0x02], table := [⟨9, 2, [(0, [7])]⟩], response := .events [.frame ⟨1, [1, 2]⟩] }
  have h₁ : Between 1 (blank 2 none) b := ⟨[], rfl, rfl⟩
  have h₂ : Between 1 s₁ s₂ := ⟨[.addSegment 9 0 2 [7], .feedByte 0x02], rfl, rfl⟩
  have h₃ : Between 1 s₃ (beginEvents s₃) := ⟨[], rfl, rfl⟩
  have e₁ : exec (.addSegment 1 1 2 [2]) b = .next s₁ := rfl
  have e₂ : exec (.addSegment 1 0 2 [1]) s₂ = .next s₃ := rfl
  exact ⟨blank_tableInv 1 _, by decide, by decide, _, _, .add h₁ e₁ (.add h₂ e₂ (.done h₃)), rfl⟩
theorem witness_SecondSubmissionOverwrites :
    (blank 1 (some 4)).TableInv ∧
      ([2] ++ [0] ++ [1]).Perm (List.range [[(1 : Byte)], [2], [3]].length) ∧ 0 ∈ [0] ∧ lookupFrame 1 (blank 1 (some 4)).table = none ∧
      fits (blank 1 (some 4)).cfg (usage (blank 1 (some 4)).table +
        [[(1 : Byte)], [2], [3]].flatten.length + ([9] : List Byte).length) = true :=
  ⟨blank_tableInv 0 _, by decide, by decide, by decide, by decide⟩
theorem witness_EvictedFramesStartAfresh :
    ({ oneRecord 1 (some 3) with table := [⟨7, 3, [(1, [0xAA])]⟩] } : State).TableInv ∧
      lookupFrame 8 [⟨7, 3, [(1, [0xAA])]⟩] = none ∧ (0 : Byte).toNat < (2 : Byte).toNat ∧
      (2 : Byte).toNat ≠ 1 ∧ fits ⟨1, some 3⟩ (usage [⟨7, 3, [(1, [0xAA])]⟩] + 2) = true ∧
      (2 : Byte).toNat < (3 : Byte).toNat ∧ (3 : Byte).toNat ≠ 1 :=
  ⟨⟨by decide, by decide, by decide, by decide, by decide⟩, by decide, by decide, by decide, by decide,
    by decide, by decide⟩
theorem witness_FramePayloadIsTheSumOfItsSegments :
    ({ blank 2 none with table := [⟨6, 2, [(0, [0x01])]⟩] } : State).TableInv ∧
      outcome (exec (.addSegment 6 1 2 [0x02]) { blank 2 none with table := [⟨6, 2, [(0, [0x01])]⟩] }) =
        some (.events [.frame ⟨6, [0x01, 0x02]⟩], [], .awaitingHeader, [], 0) ∧
      outcome (exec (.addSegment 5 0 1 [0xEE]) (blank 2 none)) =
        some (.events [.frame ⟨5, [0xEE]⟩], [], .awaitingHeader, [], 0) :=
  ⟨⟨by decide, by decide, by decide, by decide, by decide⟩, by decide, by decide⟩
/-- Both outcomes of the frame: no eviction, and an eviction. -/
theorem witness_AddSegmentFrame :
    outcome (exec (.addSegment 8 0 2 []) (oneRecord 2 none)) =
        some (.events [], [], .awaitingHeader, (oneRecord 2 none).table ++ [⟨8, 2, [(0, [])]⟩], 0) ∧
      outcome (exec (.addSegment 8 0 2 []) (oneRecord 1 none)) =
        some (.events [], [], .awaitingHeader, [⟨8, 2, [(0, [])]⟩], 1) := ⟨by decide, by decide⟩

theorem witness_ResetCarriesNothingOver :
    (oneRecord 2 none).cfg = (blank 2 none).cfg ∧
      outcome (performAll [.reset, .addSegment 7 0 3 []] (oneRecord 2 none)) =
        some (.events [], [], .awaitingHeader, [⟨7, 3, [(0, [])]⟩], 0) := by decide
theorem witness_StepRunsTheDecodedCommand :
    ({ blank 1 none with faultMark := some .internalInvariant } : State).faultMark =
        some .internalInvariant ∧
      (blank 1 none).faultMark = none ∧ (blank 1 none).pending = [] ∧
      ({ blank 1 none with pending := [[0x07]] } : State).pending = [0x07] :: [] ∧
      decodeCommand [0x07] = .ok .reset := by decide
/-- The invariants hold, and a step answers a next state. -/
theorem witness_StepKeepsTheInvariants :
    ({ blank 1 none with pending := [[0x04, 0x02]] } : State).Inv ∧
      outcome (step { blank 1 none with pending := [[0x04, 0x02]] }) =
        some (.events [], [0x02], .awaitingHeader, [], 0) :=
  ⟨⟨⟨by decide, by decide, by decide, by decide, by decide⟩, by decide⟩, by decide⟩
theorem witness_NoStepFaults : (oneRecord 2 (some 2)).Inv ∧ (oneRecord 2 (some 2)).faultMark = none :=
  ⟨oneRecord_inv _ (by decide), by decide⟩
/-- Each clause: a next state, a fault, a refusal, and each mark already set. -/
theorem witness_MarksAreSticky :
    outcome (step { blank 1 none with pending := [[0x07]] }) =
        some (.none, [], .awaitingHeader, [], 0) ∧
      (∃ f, step { blank 1 none with faultMark := some .internalInvariant } = .fault f) ∧
      refusal (step { blank 1 none with pending := [[0x00]] }) = some .illegalCommand ∧
      ({ blank 1 none with refusedMark := some .storeFull } : State).refusedMark = some .storeFull :=
  ⟨by decide, ⟨_, rfl⟩, by decide, by decide⟩
/-- Each reason. -/
theorem witness_RefusalsHaveTheirReasons :
    refusal (step { blank 1 none with pending := [[0x08]] }) = some .illegalCommand ∧
      refusal (step { blank 1 none with pending := [[0x04]] }) = some .notACommand ∧
      refusal (step { blank 1 none with pending := [[0x01, 0x06, 0x00, 0x00]] }) =
        some .unknownEncodeType ∧
      refusal (step { blank 1 (some 0) with
        pending := [[0x06, 0x00, 0x01, 0x00, 0x02, 0x00, 0x01, 0xAA]] }) = some .storeFull := by decide
theorem witness_OnlyDeframerAndResetWriteTheBuffer :
    (∀ c, Instr.decode [] ≠ .feed c) ∧ (∀ b, Instr.decode [] ≠ .feedByte b) ∧ Instr.decode [] ≠ .reset ∧
      outcome (exec (.decode []) (blank 1 none)) = some (.error .truncated, [], .awaitingHeader, [], 0) :=
  ⟨fun _ h => (nomatch h), fun _ h => (nomatch h), by decide, by decide⟩
/-- Each way to offer a segment evicts (the FEED is P3's row 2), an Ack offers none, and RESET. -/
theorem witness_DiscardCountCountsEvictions :
    1 ≤ (oneRecord 1 none).cfg.maxFrames ∧
      outcome (exec (.addSegment 8 0 2 []) (oneRecord 1 none)) =
        some (.events [], [], .awaitingHeader, [⟨8, 2, [(0, [])]⟩], 1) ∧
      outcome (exec (.msgData [0x00, 0x08, 0x00, 0x02]) (oneRecord 1 none)) =
        some (.events [.msg { type := .data, payload := [0x00, 0x08, 0x00, 0x02] }], [], .awaitingHeader,
          [⟨8, 2, [(0, [])]⟩], 1) ∧
      outcome (exec (.feed [0x04, 0x00, 0x00, 0x04]) (oneRecord 1 none)) =
        some (.events [.msg { type := .ack, payload := [] }], [], .awaitingHeader,
          (oneRecord 1 none).table, 0) ∧
      outcome (exec .reset { oneRecord 1 none with discardCount := 5 }) =
        some (.none, [], .awaitingHeader, [], 0) :=
  ⟨by decide, by decide, by decide, by decide, by decide⟩
theorem witness_DiscardCountCountsEvictions_feed :
    outcome (exec (.feed [0x05, 0x00, 0x01, 0x55, 0xD1, 0x02, 0x00, 0x05, 0x00, 0x02, 0x00, 0x02, 0xB0,
        0xB7]) (oneRecord 1 none)) =
      some (.events [.err .checksumMismatch,
          .msg { type := .data, payload := [0x00, 0x02, 0x00, 0x02, 0xB0] }], [], .awaitingHeader,
        [⟨2, 2, [(0, [0xB0])]⟩], 1) := by decide
/-- A Data payload that carries no segment, and one that completes its own frame, evict nothing. -/
theorem witness_DiscardCountCountsEvictions_kept :
    outcome (exec (.msgData [0x00]) (oneRecord 1 none)) =
        some (.events [.msg { type := .data, payload := [0x00] }, .err .invalidSegment], [],
          .awaitingHeader, (oneRecord 1 none).table, 0) ∧
      outcome (exec (.addSegment 6 1 2 [0x02]) { blank 1 none with table := [⟨6, 2, [(0, [0x01])]⟩] }) =
        some (.events [.frame ⟨6, [0x01, 0x02]⟩], [], .awaitingHeader, [], 0) := ⟨by decide, by decide⟩
/-- A segment of frame 8 cannot remove the record of frame 7 without evicting it, nor without a full TABLE. -/
theorem test_link_no_uncounted_removal :
    ¬ TableLink 1 (oneRecord 1 none).table (some ⟨8, 0, 2, []⟩) false [⟨8, 2, [(0, [])]⟩] ∧
      ¬ TableLink 2 (oneRecord 2 none).table (some ⟨8, 0, 2, []⟩) true [⟨8, 2, [(0, [])]⟩] := by
  constructor
  · intro h
    cases h with
    | own others => exact absurd others (by decide)
  · rintro ⟨⟩
    next full _ => exact absurd full (by decide)
theorem witness_InstancesAreIndependent :
    ∃ sys', stepInstance 1 [blank 1 none, { blank 1 none with pending := [[0x07]] }] = .next sys' :=
  ⟨_, rfl⟩

end Sys2Proof.Tests
end

namespace Sys2Proof.Machine

section
variable {s : State}

/-- R247: a faulted block takes no step; the fault it answers is the one FAULT holds. -/
theorem step_of_faulted {f : Fault} (hfault : s.faultMark = some f) : step s = .fault f := by
  simp only [step, issue, hfault]

/-- R290, log 3: a block with no command to issue stays as it is. -/
theorem step_of_nothing_pending (hclear : s.faultMark = none) (hnone : s.pending = []) :
    step s = .next s := by
  simp only [step, issue, hclear, hnone]

/-- R8, R95: the first pending command is decoded and run in the state without it, and the step ends
with the test of the invariants. -/
theorem step_of_decoded {c : List Byte} {cs : List (List Byte)} {i : Instr}
    (hclear : s.faultMark = none) (hfirst : s.pending = c :: cs) (hdecode : decodeCommand c = .ok i) :
    step s = endStep (exec i { s with pending := cs }) := by
  simp only [step, issue, hclear, hfirst, hdecode]

end

/-- Settles O49: one clause for each way `issue` can go before an instruction's own outcome; in the last,
the statement's match is `endStep` written out. -/
theorem stepRunsTheDecodedCommand : Obligations.StepRunsTheDecodedCommand := by
  intro s
  refine ⟨?faulted, ?nothingPending, ?decoded⟩
  case faulted => exact fun _ => step_of_faulted
  case nothingPending => exact step_of_nothing_pending
  case decoded =>
    intro c cs i hclear hfirst hdecode
    rw [step_of_decoded hclear hfirst hdecode]
    rfl

end Sys2Proof.Machine

namespace Sys2Proof.Machine

/-! ## What one operation leaves alone (R32, R40, R41) -/

section
variable {i : Instr} {s t : State}

theorem SameRest.respond (r : Response) (s : State) : SameRest s (respond r s) :=
  ⟨rfl, rfl, rfl, rfl, rfl, rfl⟩

theorem SameRest.beginEvents (s : State) : SameRest s (beginEvents s) := ⟨rfl, rfl, rfl, rfl, rfl, rfl⟩

/-- R66: ENCODE writes the response only. -/
theorem execEncode_next {tc : Byte} {p : List Byte} (h : execEncode tc p s = .next t) :
    ∃ r, t = respond r s := by
  unfold execEncode at h
  split_ifs at h
  cases h
  exact ⟨_, rfl⟩

/-- R66, R122: DECODE writes the response only, and a Message it answers is the one the bytes spell. -/
theorem execDecode_next {bs : List Byte} (h : execDecode bs s = .next t) :
    ∃ r, t = respond r s ∧ ∀ m, r = .message m → decodeWire bs = .ok m := by
  unfold execDecode at h
  split at h <;> cases h
  · next hd => exact ⟨_, rfl, fun _ he => by cases he; exact hd⟩
  · exact ⟨_, rfl, fun _ he => nomatch he⟩

/-- R66, R190: PARSE_SEGMENT writes the response only. -/
theorem execParseSegment_next {p : List Byte} (h : execParseSegment p s = .next t) :
    ∃ r, t = respond r s := by
  unfold execParseSegment at h
  split at h <;> cases h <;> exact ⟨_, rfl⟩

/-- Every instruction other than FEED, FEED_BYTE and RESET leaves all but TABLE, DISCARD_COUNT and the
response. -/
theorem exec_sameRest (hfeed : ∀ c, i ≠ .feed c) (hbyte : ∀ b, i ≠ .feedByte b) (hreset : i ≠ .reset)
    (h : exec i s = .next t) : SameRest s t := by
  cases i with
  | encode tc p => obtain ⟨r, rfl⟩ := execEncode_next h; exact .respond r s
  | decode bs => obtain ⟨r, rfl, _⟩ := execDecode_next h; exact .respond r s
  | feed c => exact absurd rfl (hfeed c)
  | feedByte b => exact absurd rfl (hbyte b)
  | parseSegment p => obtain ⟨r, rfl⟩ := execParseSegment_next h; exact .respond r s
  | addSegment f k n d => exact (SameRest.beginEvents s).trans (insertSegment_sameRest h)
  | reset => exact absurd rfl hreset
  | msgControl p => exact runMessage_sameRest (m := ⟨.control, p⟩) h
  | msgData p => exact runMessage_sameRest (m := ⟨.data, p⟩) h
  | msgError p => exact runMessage_sameRest (m := ⟨.error, p⟩) h
  | msgAck p => exact runMessage_sameRest (m := ⟨.ack, p⟩) h
  | msgInfo p => exact runMessage_sameRest (m := ⟨.info, p⟩) h

/-- No instruction writes the marks, the configuration or the pending commands (R40, R41). -/
theorem exec_rest (h : exec i s = .next t) : t.faultMark = s.faultMark ∧
    t.refusedMark = s.refusedMark ∧ t.cfg = s.cfg ∧ t.pending = s.pending := by
  cases i with
  | feed c => exact feedRun_rest (s := appendBuf c (beginEvents s)) h
  | feedByte b => exact feedRun_rest (s := appendBuf [b] (beginEvents s)) h
  | reset => cases h; exact ⟨rfl, rfl, rfl, rfl⟩
  | _ =>
    have hr := exec_sameRest (by simp) (by simp) (by simp) h
    exact ⟨hr.faultMark, hr.refusedMark, hr.cfg, hr.pending⟩

end

/-! ## The invariants of the state between operations (R33, R35 to R37, R49) -/

section
variable {i : Instr} {s t : State}

/-- R158: FEED ends its loop where the deframer invariant holds. -/
theorem execFeed_deframerOk {c : List Byte} (hd : deframerOk s.buf s.mode = true)
    (h : execFeed c s = .next t) : deframerOk t.buf t.mode = true :=
  (feedRun_keeps (s := appendBuf c (beginEvents s)) (latched_append (latched_of_ok hd)) h).1

/-- Every instruction keeps the deframer invariant R33, without the test at the end of a step: RESET
empties BUF, and only FEED and FEED_BYTE write BUF or MODE otherwise. -/
theorem exec_deframerOk (hd : deframerOk s.buf s.mode = true) (h : exec i s = .next t) :
    deframerOk t.buf t.mode = true := by
  cases i with
  | feed c => exact execFeed_deframerOk hd h
  | feedByte b => exact execFeed_deframerOk hd h
  | reset => cases h; rfl
  | _ =>
    have hr := exec_sameRest (by simp) (by simp) (by simp) h
    rw [hr.buf, hr.mode]
    exact hd

/-- Every instruction keeps the invariants of the state between operations. -/
theorem exec_inv (hi : s.Inv) (h : exec i s = .next t) : t.Inv :=
  ⟨exec_tableInv hi.toTableInv h, exec_deframerOk hi.deframer h⟩

/-- Issuing a command touches none of the fields the invariants speak of. -/
theorem State.Inv.withPending (hi : s.Inv) (cs : List (List Byte)) :
    ({ s with pending := cs } : State).Inv :=
  ⟨hi.toTableInv.of_eq rfl rfl, hi.deframer⟩

end

/-- Settles O50: a step that answers a next state did nothing or ran one instruction, and every instruction
keeps the invariants by itself, without the test at the end of a step. -/
theorem stepKeepsTheInvariants : Obligations.StepKeepsTheInvariants := by
  intro s t hi h
  obtain ⟨-, ⟨-, rfl⟩ | ⟨c, cs, i, -, -, hrun, -⟩⟩ := step_next h
  · exact hi
  · exact exec_inv (hi.withPending cs) hrun

/-- Settles O55: `exec_rest` for the fields no instruction writes, `exec_sameRest` for BUF and MODE. -/
theorem onlyDeframerAndResetWriteTheBuffer : Obligations.OnlyDeframerAndResetWriteTheBuffer := by
  intro i s t h
  obtain ⟨hfault, hrefused, hcfg, hpending⟩ := exec_rest h
  refine ⟨hcfg, hfault, hrefused, hpending, fun hfeed hbyte hreset => ?_⟩
  have hr := exec_sameRest hfeed hbyte hreset h
  exact ⟨hr.buf, hr.mode⟩

/-! ## The marks (R41, R247, R248) -/

section
variable {s t : State}

theorem advance_of_next (h : step s = .next t) : advance s = t := by
  rw [advance, h]
  rfl

/-- A fault sets FAULT, unless it holds an earlier reason, and only FAULT of the block state (log 6). -/
theorem advance_of_fault {f : Fault} (h : step s = .fault f) : advance s = { s with
    faultMark := some (s.faultMark.getD f), response := .none, pending := s.pending.drop 1 } := by
  rw [advance, h]
  rfl

/-- A refusal sets REFUSED, unless it holds an earlier reason, and only REFUSED of the block state (log 6). -/
theorem advance_of_refused {r : Refusal} (h : step s = .refused r) : advance s = { s with
    refusedMark := some (s.refusedMark.getD r), response := .none, pending := s.pending.drop 1 } := by
  rw [advance, h]
  rfl

theorem step_marks (h : step s = .next t) :
    t.faultMark = s.faultMark ∧ t.refusedMark = s.refusedMark := by
  obtain ⟨-, ⟨-, rfl⟩ | ⟨c, cs, i, -, -, hrun, -⟩⟩ := step_next h
  · exact ⟨rfl, rfl⟩
  · obtain ⟨hfault, hrefused, -, -⟩ := exec_rest hrun
    exact ⟨hfault, hrefused⟩

/-- A mark once set stays set, with its first reason, whatever the step answers. -/
theorem advance_keeps_refusedMark {r : Refusal} (hr : s.refusedMark = some r) :
    (advance s).refusedMark = some r := by
  cases h : step s with
  | next t => rw [advance_of_next h, (step_marks h).2, hr]
  | fault f => rw [advance_of_fault h]; exact hr
  | refused q => simp [advance_of_refused h, hr]

theorem advance_keeps_faultMark {f : Fault} (hf : s.faultMark = some f) :
    (advance s).faultMark = some f := by
  simp [advance_of_fault (step_of_faulted hf), hf]

end

/-- Settles O53: one clause for each outcome of a step, then one for each mark that is already set. -/
theorem marksAreSticky : Obligations.MarksAreSticky := by
  intro s
  refine ⟨fun t => step_marks, fun f hf => ?_, fun r hr => ?_, fun r => advance_keeps_refusedMark,
    fun f => advance_keeps_faultMark⟩
  · rw [advance_of_fault hf]
    exact ⟨rfl, rfl⟩
  · rw [advance_of_refused hr]
    exact ⟨rfl, rfl, rfl, rfl, rfl, rfl, rfl⟩

/-! ## The messages that are answered (R42) -/

section
variable {s t : State} {c : List Byte} {m : Message} {es : List Event}

/-- What DECODE accepts has a payload that its 16-bit length field can count. -/
theorem length_toNat_of_decodeWire (h : decodeWire c = .ok m) : m.length.toNat = m.payload.length := by
  have hlen : m.payload.length ≤ 65535 := (decodeWire_ok h).1
  simp only [Message.length, BitVec.toNat_ofNat]
  omega

/-- Every message among the events of a candidate is the one the candidate decodes to (R156). -/
theorem CandidateEvents.decodes (h : CandidateEvents c es) (hm : .msg m ∈ es) :
    decodeWire c = .ok m := by
  cases h with
  | bad e he hk => simp at hm
  | good m' hd => exact (by simpa using hm : m = m') ▸ hd
  | rejected m' hd _ => exact (by simpa using hm : m = m') ▸ hd
  | completed m' g f hd _ _ _ => exact (by simpa using hm : m = m') ▸ hd

/-- One repetition of FEED's loop appends nothing to the response, or the events of the candidate it ran. -/
theorem modeStep_events (h : modeStep s = some (.next t)) :
    t.response = s.response ∨
      ∃ c es, CandidateEvents c es ∧ t.response = .events (Response.eventList s.response ++ es) := by
  rcases modeStep_some h with ⟨_, _, _, _, _, _, ho⟩ | ⟨_, len, _, _, ho⟩
  · cases ho
    exact .inl rfl
  · obtain ⟨es, hes, hr⟩ := runCandidate_events ho.symm
    exact .inr ⟨_, es, hes, hr⟩

/-- The messages of a response have the length of their payload in their length field (R42). -/
def MessagesCounted (r : Response) : Prop :=
  ∀ m, .msg m ∈ Response.eventList r → m.length.toNat = m.payload.length

theorem modeStep_messagesCounted (hs : MessagesCounted s.response) (h : modeStep s = some (.next t)) :
    MessagesCounted t.response := by
  rcases modeStep_events h with hr | ⟨c, es, hes, hr⟩
  · rwa [hr]
  · intro m hm
    rw [hr, eventList_events, List.mem_append] at hm
    rcases hm with hm | hm
    · exact hs m hm
    · exact length_toNat_of_decodeWire (hes.decodes hm)

theorem execFeed_messagesCounted (h : execFeed c s = .next t) : MessagesCounted t.response :=
  (feedRun_induct (P := fun u => MessagesCounted u.response)
    (s := appendBuf c (beginEvents s))
    (fun _ _ => modeStep_messagesCounted) (fun _ hm => nomatch hm) h).1

end

/-- Settles O35: both answer only messages that `decodeWire` accepted. FEED's loop keeps that of the response. -/
theorem answeredMessagesAreWellFormed : Obligations.AnsweredMessagesAreWellFormed := by
  refine ⟨fun c s t es m h hr hm => ?_, fun bs s t m h hr => ?_⟩
  · exact execFeed_messagesCounted h m (by rw [hr]; exact hm)
  · obtain ⟨r, rfl, hd⟩ := execDecode_next h
    exact length_toNat_of_decodeWire (hd m hr)

/-! ## Evictions and DISCARD_COUNT (R38, R198, R245, R252) -/

section
variable {s t u : State} {c : List Byte} {m : Message} {es : List Event} {mf : Nat}
  {T U V : List FrameAssembly} {gs hs : List (Option Segment)} {bs ds : List Bool}

theorem TableRun.append (h : TableRun mf T gs bs U) (k : TableRun mf U hs ds V) :
    TableRun mf T (gs ++ hs) (bs ++ ds) V := by
  induction h with
  | done T => exact k
  | link hl _ ih => exact .link hl (ih k)

/-- Offering the segments `gs` takes TABLE from `s` to `t`, and DISCARD_COUNT counts their evictions: the
second clause of the statement on DISCARD_COUNT. -/
def EvictionsCounted (s : State) (gs : List (Option Segment)) (t : State) : Prop :=
  ∃ evictions : List Bool, TableRun s.cfg.maxFrames s.table gs evictions t.table ∧
    t.discardCount = s.discardCount + BitVec.ofNat 32 (evictions.count true)

theorem EvictionsCounted.untouched (ht : t.table = s.table) (hd : t.discardCount = s.discardCount) :
    EvictionsCounted s [] t :=
  ⟨[], by rw [ht]; exact .done _, by simp [hd]⟩

theorem EvictionsCounted.of_link {g : Option Segment}
    (h : ∃ b, TableLink s.cfg.maxFrames s.table g b t.table ∧
      t.discardCount = s.discardCount + BitVec.ofNat 32 ([b].count true)) :
    EvictionsCounted s [g] t := by
  obtain ⟨b, hl, hd⟩ := h
  exact ⟨[b], .link hl (.done _), hd⟩

theorem EvictionsCounted.trans (hcfg : t.cfg = s.cfg) (h : EvictionsCounted s gs t)
    (k : EvictionsCounted t hs u) : EvictionsCounted s (gs ++ hs) u := by
  obtain ⟨bs, hrun, hd⟩ := h
  obtain ⟨ds, krun, kd⟩ := k
  refine ⟨bs ++ ds, hrun.append (hcfg ▸ krun), ?_⟩
  rw [kd, hd, List.count_append, BitVec.ofNat_add, BitVec.add_assoc]

theorem dataSegments_append (es fs : List Event) :
    dataSegments (es ++ fs) = dataSegments es ++ dataSegments fs := by
  induction es with
  | nil => rfl
  | cons e es ih =>
    cases e with
    | msg m => by_cases hm : m.type = .data <;> simp [dataSegments, hm, ih]
    | err e => exact ih
    | frame f => exact ih

/-- A message offers its segment, if it is a Data message, and nothing else (R126 to R128, R160). -/
theorem runMessage_counted (hmax : 1 ≤ s.cfg.maxFrames) (h : runMessage m s = .next t) :
    EvictionsCounted s (dataSegments [.msg m]) t := by
  by_cases hm : m.type = .data
  · rw [runMessage_eq, if_pos hm] at h
    rw [dataSegments, if_pos hm]
    exact .of_link (route_link (s := emit (.msg m) s) hmax h)
  · obtain ⟨ht, hd⟩ := runMessage_table hm h
    rw [dataSegments, if_neg hm]
    exact .untouched ht hd

/-- The segments a candidate offers: those of the message it decodes to (R160). -/
def candidateSegments (c : List Byte) : List (Option Segment) :=
  match decodeWire c with
  | .ok m => dataSegments [.msg m]
  | .error _ => []

/-- The segments of a candidate can be read off the events it emits. -/
theorem CandidateEvents.dataSegments_eq (h : CandidateEvents c es) :
    dataSegments es = candidateSegments c := by
  cases h with
  | bad e he _ => simp [candidateSegments, he, dataSegments]
  | good m hd => simp [candidateSegments, hd]
  | rejected m hd ht => simp [candidateSegments, hd, ht, dataSegments]
  | completed m g f hd ht _ _ => simp [candidateSegments, hd, ht, dataSegments]

theorem runCandidate_counted (hmax : 1 ≤ s.cfg.maxFrames) (h : runCandidate c s = .next t) :
    EvictionsCounted s (candidateSegments c) t := by
  unfold runCandidate at h
  unfold candidateSegments
  cases hd : decodeWire c with
  | ok m => rw [hd] at h; exact runMessage_counted hmax h
  | error e =>
    rw [hd] at h
    cases e <;> cases h <;> exact .untouched rfl rfl

/-- What FEED's loop keeps, from the state `s` it began in: the segments of the messages emitted so far
account for TABLE and DISCARD_COUNT. -/
structure FeedCounted (s u : State) : Prop where
  cfg     : u.cfg = s.cfg
  counted : EvictionsCounted s (dataSegments (Response.eventList u.response)) u

theorem modeStep_feedCounted (hmax : 1 ≤ s.cfg.maxFrames) (hu : FeedCounted s u)
    (h : modeStep u = some (.next t)) : FeedCounted s t := by
  rcases modeStep_some h with ⟨_, _, _, _, _, _, ho⟩ | ⟨_, len, _, _, ho⟩
  · cases ho
    exact ⟨hu.cfg, hu.counted⟩
  · obtain ⟨es, hes, hr⟩ := runCandidate_events ho.symm
    refine ⟨(runCandidate_sameRest ho.symm).cfg.trans hu.cfg, ?_⟩
    rw [hr, eventList_events, dataSegments_append, hes.dataSegments_eq]
    have hmax' : 1 ≤ u.cfg.maxFrames := by rw [hu.cfg]; exact hmax
    exact hu.counted.trans hu.cfg (runCandidate_counted (s := { u with
      buf := u.buf.drop (len.toNat + 4), mode := .awaitingHeader }) hmax' ho.symm)

theorem execFeed_counted (hmax : 1 ≤ s.cfg.maxFrames) (h : execFeed c s = .next t) :
    EvictionsCounted s (dataSegments (Response.eventList t.response)) t :=
  (feedRun_induct (P := FeedCounted (beginEvents s)) (s := appendBuf c (beginEvents s))
    (fun _ _ => modeStep_feedCounted hmax) ⟨rfl, .untouched rfl rfl⟩ h).1.counted

/-- Every instruction but RESET evicts only for the segments it offers, and counts each eviction. -/
theorem exec_counted {i : Instr} (hmax : 1 ≤ s.cfg.maxFrames) (hreset : i ≠ .reset)
    (h : exec i s = .next t) : EvictionsCounted s (segmentsOffered i t.response) t := by
  cases i with
  | encode tc p => obtain ⟨r, rfl⟩ := execEncode_next h; exact .untouched rfl rfl
  | decode bs => obtain ⟨r, rfl, _⟩ := execDecode_next h; exact .untouched rfl rfl
  | feed c => exact execFeed_counted hmax h
  | feedByte b => exact execFeed_counted hmax h
  | parseSegment p => obtain ⟨r, rfl⟩ := execParseSegment_next h; exact .untouched rfl rfl
  | addSegment f k n d => exact .of_link (insertSegment_link (s := beginEvents s) hmax h)
  | reset => exact absurd rfl hreset
  | msgControl p => exact runMessage_counted (m := ⟨.control, p⟩) hmax h
  | msgData p => exact runMessage_counted (m := ⟨.data, p⟩) hmax h
  | msgError p => exact runMessage_counted (m := ⟨.error, p⟩) hmax h
  | msgAck p => exact runMessage_counted (m := ⟨.ack, p⟩) hmax h
  | msgInfo p => exact runMessage_counted (m := ⟨.info, p⟩) hmax h

end

/-- Settles O56: RESET clears the count, and `exec_counted` is the other clause; FEED's loop keeps it of the
events emitted so far. -/
theorem discardCountCountsEvictions : Obligations.DiscardCountCountsEvictions := by
  intro i s t hmax h
  refine ⟨?_, fun hreset => exec_counted hmax hreset h⟩
  rintro rfl
  cases h
  rfl

end Sys2Proof.Machine

namespace Sys2Proof.Machine

/-! ## The pure operations (R66) -/

/-- R120: which of ENCODE's two refusals or its answer occurs is settled by the operands alone. -/
theorem execEncode_uniform (tc : Byte) (p : List Byte) :
    (∃ r, ∀ s, execEncode tc p s = .next (respond r s)) ∨ ∃ r, ∀ s, execEncode tc p s = .refused r := by
  by_cases hrecognized : recognized tc
  · by_cases hlong : p.length > Config.lenMax
    · exact .inr ⟨.payloadTooLong, fun s =>
        (if_neg (not_not.mpr hrecognized)).trans (if_pos hlong)⟩
    · exact .inl ⟨.bytes (serialize tc p), fun s =>
        (if_neg (not_not.mpr hrecognized)).trans (if_neg hlong)⟩
  · exact .inr ⟨.unknownEncodeType, fun s => if_pos hrecognized⟩

/-- R122: DECODE is never refused, and its answer is settled by its bytes alone. -/
theorem execDecode_uniform (bs : List Byte) : ∃ r, ∀ s, execDecode bs s = .next (respond r s) := by
  unfold execDecode
  cases decodeWire bs with
  | ok m => exact ⟨.message m, fun _ => rfl⟩
  | error e => exact ⟨.error e, fun _ => rfl⟩

/-- R190: PARSE_SEGMENT is never refused, and its answer is settled by its payload alone. -/
theorem execParseSegment_uniform (p : List Byte) :
    ∃ r, ∀ s, execParseSegment p s = .next (respond r s) := by
  unfold execParseSegment
  cases parsePayload p with
  | ok g => exact ⟨.segment g, fun _ => rfl⟩
  | error e => exact ⟨.error e, fun _ => rfl⟩

/-- Settles O17: each operation's answer is chosen before the state is looked at; only ENCODE has a
refusal. -/
theorem pureOperationsTouchNoState : Obligations.PureOperationsTouchNoState := by
  rintro i (⟨tc, p, rfl⟩ | ⟨bs, rfl⟩ | ⟨p, rfl⟩)
  · exact execEncode_uniform tc p
  · exact .inl (execDecode_uniform bs)
  · exact .inl (execParseSegment_uniform p)

/-! ## Several instances (R74) -/

/-- What a completing step of one instance can do: nothing, where there is no such instance, or that
instance's own step, stored in its place. -/
theorem stepInstance_next {n : Nat} {sys sys' : List State} (h : stepInstance n sys = .next sys') :
    (sys[n]? = none ∧ sys' = sys) ∨
      ∃ s t, sys[n]? = some s ∧ step s = .next t ∧ sys' = sys.set n t := by
  unfold stepInstance at h
  split at h
  · next hnone =>
    cases h
    exact .inl ⟨hnone, rfl⟩
  · next s hs =>
    split at h <;> cases h
    next t ht => exact .inr ⟨s, t, hs, ht, rfl⟩

/-- Settles O57: a completing step changes the list at most by `List.set` at the instance's own place. -/
theorem instancesAreIndependent : Obligations.InstancesAreIndependent := by
  intro n sys sys' h
  obtain ⟨hnone, rfl⟩ | ⟨s, t, hs, ht, rfl⟩ := stepInstance_next h
  · exact ⟨rfl, fun _ _ => rfl, fun s hs => by simp [hnone] at hs⟩
  · refine ⟨List.length_set, fun k hk => List.getElem?_set_ne hk.symm, fun s' hs' => ?_⟩
    obtain rfl : s = s' := Option.some.inj (hs.symm.trans hs')
    obtain ⟨hn, -⟩ := List.getElem?_eq_some_iff.mp hs
    exact ⟨t, ht, List.getElem?_set_self hn⟩

end Sys2Proof.Machine

namespace Sys2Proof

/-! ## Operands behind their counts (R80, R96) -/

section
variable {v w : Half} {m n : Nat} {p q x y : List Byte}

theorem be16Bytes_inj (h : be16Bytes v = be16Bytes w) : v = w := by
  simp only [be16Bytes_eq, List.cons.injEq, and_true] at h
  obtain ⟨hhi, hlo⟩ := h
  rw [← be16_of_bytes v, hhi, hlo, be16_of_bytes]

theorem be32Bytes_inj (hm : m < 2 ^ 32) (hn : n < 2 ^ 32) (h : be32Bytes m = be32Bytes n) : m = n := by
  simp only [be32Bytes, List.cons.injEq, and_true] at h
  obtain ⟨h3, h2, h1, h0⟩ := h
  rw [← be32_of_bytes hm, h3, h2, h1, h0, be32_of_bytes hn]

/-- A 16-bit count in front of an operand says where the operand ends. -/
theorem be16Bytes_counted_inj (hp : p.length ≤ 65535) (hq : q.length ≤ 65535)
    (h : be16Bytes (BitVec.ofNat 16 p.length) ++ (p ++ x) =
      be16Bytes (BitVec.ofNat 16 q.length) ++ (q ++ y)) : p = q ∧ x = y := by
  obtain ⟨hcount, hrest⟩ := List.append_inj h rfl
  have hlen : p.length = q.length := by
    rw [← ofNat16_toNat hp, be16Bytes_inj hcount, ofNat16_toNat hq]
  exact List.append_inj hrest hlen

/-- A 32-bit count in front of an operand says where the operand ends. -/
theorem be32Bytes_counted_inj (hp : p.length < 2 ^ 32) (hq : q.length < 2 ^ 32)
    (h : be32Bytes p.length ++ (p ++ x) = be32Bytes q.length ++ (q ++ y)) : p = q ∧ x = y := by
  obtain ⟨hcount, hrest⟩ := List.append_inj h rfl
  exact List.append_inj hrest (be32Bytes_inj hp hq hcount)

end

section
variable {a b c d : Byte} {r rest : List Byte} {mk : List Byte → Instr} {i : Instr}

/-- What a 16-bit count reads is an operand such a count can carry, and spelling it again gives the bytes
that were read. -/
theorem takeOperand_be16_ok (h : takeOperand (be16 a b).toNat r mk = .ok (i, rest)) :
    ∃ p, i = mk p ∧ p.length ≤ Config.lenMax ∧
      be16Bytes (BitVec.ofNat 16 p.length) ++ (p ++ rest) = a :: b :: r := by
  obtain ⟨hle, rfl, rfl⟩ := takeOperand_ok h
  have hlen : (r.take (be16 a b).toNat).length = (be16 a b).toNat := List.length_take_of_le hle
  refine ⟨_, rfl, by rw [hlen]; exact Nat.le_of_lt_succ (be16 a b).isLt, ?_⟩
  rw [hlen, BitVec.ofNat_toNat, BitVec.setWidth_eq, be16Bytes_be16, List.take_append_drop]
  rfl

/-- The same of a 32-bit count. -/
theorem takeOperand_be32_ok (h : takeOperand (be32 a b c d) r mk = .ok (i, rest)) :
    ∃ p, i = mk p ∧ p.length < 2 ^ 32 ∧
      be32Bytes p.length ++ (p ++ rest) = a :: b :: c :: d :: r := by
  obtain ⟨hle, rfl, rfl⟩ := takeOperand_ok h
  have hlen : (r.take (be32 a b c d)).length = be32 a b c d := List.length_take_of_le hle
  refine ⟨_, rfl, by rw [hlen]; exact be32_lt a b c d, ?_⟩
  rw [hlen, be32Bytes_be32, List.take_append_drop]
  rfl

/-- An operand spelled behind a 16-bit count is read whole, and the bytes after it are left. -/
theorem takeOperand_be16_counted {p : List Byte} (hp : p.length ≤ 65535) (r : List Byte)
    (mk : List Byte → Instr) :
    takeOperand (be16 (BitVec.ofNat 8 (p.length / 256)) (BitVec.ofNat 8 p.length)).toNat (p ++ r) mk =
      .ok (mk p, r) := by
  rw [be16_toNat_of_le hp, takeOperand_append]

/-- The same of a 32-bit count. -/
theorem takeOperand_be32_counted {p : List Byte} (hp : p.length < 2 ^ 32) (r : List Byte)
    (mk : List Byte → Instr) :
    takeOperand (be32 (BitVec.ofNat 8 (p.length / 2 ^ 24)) (BitVec.ofNat 8 (p.length / 2 ^ 16))
      (BitVec.ofNat 8 (p.length / 2 ^ 8)) (BitVec.ofNat 8 p.length)) (p ++ r) mk = .ok (mk p, r) := by
  rw [be32_of_bytes hp, takeOperand_append]

end

/-! ## Commands at the front of a byte sequence (R95 to R97, R283) -/

/-- Reading the bytes of a command gives it back and leaves the bytes after it. -/
theorem decodePrefix_encode_append {i : Instr} (hwf : i.wellFormed = true) (hspace : i.space = .command)
    (r : List Byte) : decodePrefix (encode i ++ r) = .ok (i, r) := by
  cases i with
  | encode tc p =>
    have hp : p.length ≤ 65535 := of_decide_eq_true hwf
    rw [encode, be16Bytes_length_of_le hp]
    exact takeOperand_be16_counted hp r (.encode tc)
  | decode p | feed p => exact takeOperand_be32_counted (of_decide_eq_true hwf) r _
  | feedByte b => rfl
  | parseSegment p =>
    have hp : p.length ≤ 65535 := of_decide_eq_true hwf
    rw [encode, be16Bytes_length_of_le hp]
    exact takeOperand_be16_counted hp r .parseSegment
  | addSegment f k t d =>
    have hp : d.length ≤ 65535 := of_decide_eq_true hwf
    rw [encode, be16Bytes_length_of_le hp, be16Bytes_eq]
    change takeOperand _ (d ++ r) (.addSegment (be16 _ _) k t) = _
    rw [be16_of_bytes]
    exact takeOperand_be16_counted hp r (.addSegment f k t)
  | reset => rfl
  | msgControl | msgData | msgError | msgAck | msgInfo => cases hspace

theorem eq_ofNat_of_toNat {b : Byte} {n : Nat} (h : b.toNat = n) : b = BitVec.ofNat 8 n := by
  simp [← h]

/-- A command that is read has an encoding, which stands at the front of the bytes, before those left. -/
theorem decodePrefix_ok {bs rest : List Byte} {i : Instr} (h : decodePrefix bs = .ok (i, rest)) :
    i.wellFormed = true ∧ i.space = .command ∧ encode i ++ rest = bs := by
  cases bs with
  | nil => cases h
  | cons op tail =>
    simp only [decodePrefix] at h
    split at h
    case h_1 hop | h_5 hop | h_6 hop =>
      obtain rfl := eq_ofNat_of_toNat hop
      split at h
      · obtain ⟨p, rfl, hp, hbytes⟩ := takeOperand_be16_ok h
        exact ⟨decide_eq_true hp, rfl, by simp [encode, be16Bytes_be16, ← hbytes]⟩
      · cases h
    case h_2 hop | h_3 hop =>
      obtain rfl := eq_ofNat_of_toNat hop
      split at h
      · obtain ⟨p, rfl, hp, hbytes⟩ := takeOperand_be32_ok h
        exact ⟨decide_eq_true hp, rfl, by simp [encode, ← hbytes]⟩
      · cases h
    case h_4 hop =>
      obtain rfl := eq_ofNat_of_toNat hop
      split at h <;> cases h
      exact ⟨rfl, rfl, rfl⟩
    case h_7 hop =>
      obtain rfl := eq_ofNat_of_toNat hop
      cases h
      exact ⟨rfl, rfl, rfl⟩
    case h_8 => cases h

theorem decodeCommand_ok_iff {bs : List Byte} {i : Instr} :
    decodeCommand bs = .ok i ↔ decodePrefix bs = .ok (i, []) := by
  unfold decodeCommand
  split <;> simp_all

/-- R97: an opcode byte of no operation is rejected whatever follows it. -/
theorem decodeCommand_illegalOpcode {op : Byte} (h : op = 0x00 ∨ 0x08 ≤ op.toNat) (rest : List Byte) :
    decodeCommand (op :: rest) = .error .illegalOpcode := by
  have hp : decodePrefix (op :: rest) = .error .illegalOpcode := by
    have hop : op.toNat = 0 ∨ 8 ≤ op.toNat := h.imp_left (congrArg BitVec.toNat)
    simp only [decodePrefix]
    split
    case h_8 => rfl
    all_goals omega
  simp only [decodeCommand, hp]

end Sys2Proof

namespace Sys2Proof.Machine

/-- Settles O1: the case of `decodePrefix_encode_append` with nothing after the command. -/
theorem commandRoundTrip : Obligations.CommandRoundTrip := by
  intro i hwf hspace
  have h := decodePrefix_encode_append hwf hspace []
  rw [List.append_nil] at h
  exact decodeCommand_ok_iff.mpr h

/-- Settles O2: the case of `decodePrefix_ok` with nothing left over. -/
theorem commandBytesHaveOneMeaning : Obligations.CommandBytesHaveOneMeaning := by
  intro bs i h
  obtain ⟨hwf, hspace, hbytes⟩ := decodePrefix_ok (decodeCommand_ok_iff.mp h)
  exact ⟨hwf, hspace, by rwa [List.append_nil] at hbytes⟩

/-- Settles O3: an instruction of the wire space is a message's, and DECODE reads the message back. -/
theorem wireMessageRoundTrip : Obligations.WireMessageRoundTrip := by
  intro i hwf hspace
  obtain ⟨m, rfl⟩ := exists_message_of_wire hspace
  have hd : decodeWire m.wire = .ok m := decodeWire_serialize m.type ((instr_wellFormed m).mp hwf)
  rw [encode_instr, decodeMessage, hd]
  rfl

/-- Settles O4: `decodeWire_ok`, said of the message's instruction. -/
theorem wireBytesHaveOneMeaning : Obligations.WireBytesHaveOneMeaning := by
  intro bs m h
  obtain ⟨hlen, rfl⟩ := decodeWire_ok h
  exact ⟨(instr_wellFormed m).mpr hlen, instr_space m, encode_instr m,
    serialize_length m.type.code m.payload⟩

/-! ## The checksum (R80, R81) -/

section
variable (tc : Byte) (p : List Byte)

/-- The bytes before the checksum are the ones it covers. -/
theorem serialize_take_body : (serialize tc p).take (p.length + 3) = messageBody tc p :=
  List.take_left' (messageBody_length tc p)

theorem serialize_getElem?_checksum :
    (serialize tc p)[p.length + 3]? = some (xorfold (messageBody tc p)) :=
  List.getElem?_append_right (messageBody_length tc p).le |>.trans (by simp)

theorem xorfold_messageBody (hp : p.length ≤ 65535) :
    xorfold (messageBody tc p) =
      tc ^^^ BitVec.ofNat 8 (p.length / 256) ^^^ BitVec.ofNat 8 p.length ^^^ xorfold p := by
  simp only [messageBody_eq, ofNat16_toNat hp, xorfold_cons, BitVec.xor_assoc]

/-- The checksum cancels the fold of the bytes it covers. -/
@[simp] theorem xorfold_serialize : xorfold (serialize tc p) = 0 := by
  simp [serialize]

end

/-- Settles O5: a serialized message is its body and then the body's fold. -/
theorem checksumIsXorOfEveryByteBefore : Obligations.ChecksumIsXorOfEveryByteBefore := by
  refine ⟨fun tc p hp => ?_, fun bs m h => ?_⟩
  · rw [serialize_take_body]
    exact ⟨serialize_length tc p, serialize_getElem?_checksum tc p, xorfold_messageBody tc p hp,
      xorfold_serialize tc p⟩
  · obtain ⟨-, rfl⟩ := decodeWire_ok h
    exact xorfold_serialize m.type.code m.payload

/-! ## Illegal opcodes (R97, R248) -/

theorem step_of_illegalOpcode {s : State} {c : List Byte} {cs : List (List Byte)}
    (hclear : s.faultMark = none) (hfirst : s.pending = c :: cs)
    (hdecode : decodeCommand c = .error .illegalOpcode) : step s = .refused .illegalCommand := by
  simp only [step, issue, hclear, hfirst, hdecode]

/-- Settles O9: the decoder rejects the byte, and a refused step sets REFUSED only. -/
theorem illegalOpcodesAreRefused : Obligations.IllegalOpcodesAreRefused := by
  intro s op rest cs hclear hfirst hop
  have hrefused : step s = .refused .illegalCommand :=
    step_of_illegalOpcode hclear hfirst (decodeCommand_illegalOpcode hop rest)
  rw [advance_of_refused hrefused]
  exact ⟨hrefused, fun hnone => by simp [hnone], by simp, rfl, rfl, rfl, rfl, rfl⟩

/-! ## Pseudo-operations (R86, R87, R100) -/

/-- R120: with the code of a type and a payload that fits, ENCODE answers the wire form of that message. -/
theorem execEncode_of_code (ty : MsgType) {p : List Byte} (hp : p.length ≤ Config.lenMax) (s : State) :
    execEncode ty.code p s = .next (respond (.bytes (serialize ty.code p)) s) := by
  have hrecognized : recognized ty.code = true := by simp [recognized]
  simp [execEncode, hrecognized, hp]

theorem mtuOf_be16Bytes (v : Half) : mtuOf { type := .control, payload := be16Bytes v } = some v := by
  simp only [be16Bytes_eq, mtuOf, be16_of_bytes]

/-- R86: the segment header is 4 bytes. -/
theorem segmentPayload_length (g : Segment) : (segmentPayload g).length = g.data.length + 4 := by
  simp [segmentPayload]; omega

/-- Settles O11: ENCODE completes, DECODE reads the message back, and its payload reads as what was sent. -/
theorem pseudoOperationsAreReadBack : Obligations.PseudoOperationsAreReadBack := by
  refine ⟨fun v s => ?mtu, fun f k t d s hd => ?segment⟩
  case mtu =>
    have hp : (be16Bytes v).length ≤ Config.lenMax := by simp [Config.lenMax]
    exact ⟨_, _, List.forall_mem_singleton.mpr (execEncode_of_code .control hp s),
      decodeWire_serialize .control hp, rfl, mtuOf_be16Bytes v⟩
  case segment =>
    have hp : (segmentPayload ⟨f, k, t, d⟩).length ≤ Config.lenMax := by
      rw [segmentPayload_length]; exact Nat.add_le_add_right hd 4
    exact ⟨_, _, List.forall_mem_singleton.mpr (execEncode_of_code .data hp s),
      decodeWire_serialize .data hp, rfl, parsePayload_segmentPayload ⟨f, k, t, d⟩⟩

/-! ## The spelling of events (R98, R240) -/

section
variable {tc td : Byte} {p q x y : List Byte} {e f : Event}

theorem errorCode_inj {j k : ErrorKind} (h : errorCode j = errorCode k) : j = k := by
  revert h; cases j <;> cases k <;> decide

theorem serialize_append_inj (hp : p.length ≤ 65535) (hq : q.length ≤ 65535)
    (h : serialize tc p ++ x = serialize td q ++ y) : tc = td ∧ p = q ∧ x = y := by
  simp only [serialize, messageBody, List.append_assoc, List.cons_append, List.cons.injEq] at h
  obtain ⟨htype, hcounted⟩ := h
  obtain ⟨hpayload, hafter⟩ := be16Bytes_counted_inj hp hq hcounted
  exact ⟨htype, hpayload, (List.cons.inj hafter).2⟩

theorem wire_append_inj {m n : Message} (hm : m.payload.length ≤ 65535) (hn : n.payload.length ≤ 65535)
    (h : m.wire ++ x = n.wire ++ y) : m = n ∧ x = y := by
  obtain ⟨ty, p⟩ := m
  obtain ⟨ty', q⟩ := n
  obtain ⟨hcode, rfl, rfl⟩ := serialize_append_inj hm hn h
  have htype : some ty = some ty' := by rw [← typeOf_code, ← typeOf_code, hcode]
  cases htype
  exact ⟨rfl, rfl⟩

/-- The count fields of an event's spelling hold the lengths of what it carries (R80, R98). -/
def EventFits : Event → Prop
  | .msg m => m.payload.length ≤ 65535
  | .err _ => True
  | .frame f => f.payload.length < 2 ^ 32

theorem spellEvent_ne_nil (e : Event) : spellEvent e ≠ [] := by
  cases e <;> exact List.cons_ne_nil _ _

/-- An event's spelling says where it ends: its first byte gives its kind, and each kind has a fixed
length or a count field. -/
theorem spellEvent_append_inj (he : EventFits e) (hf : EventFits f)
    (h : spellEvent e ++ x = spellEvent f ++ y) : e = f ∧ x = y := by
  cases e <;> cases f
  case msg.msg m n =>
    obtain ⟨rfl, hrest⟩ := wire_append_inj he hf (List.cons.inj h).2
    exact ⟨rfl, hrest⟩
  case err.err j k =>
    simp only [spellEvent, List.cons_append, List.nil_append, List.cons.injEq, true_and] at h
    exact ⟨congrArg Event.err (errorCode_inj h.1), h.2⟩
  case frame.frame A B =>
    obtain ⟨a, p⟩ := A
    obtain ⟨b, q⟩ := B
    simp only [spellEvent, List.cons_append, List.append_assoc, List.cons.injEq, true_and] at h
    obtain ⟨hid, hcounted⟩ := List.append_inj h rfl
    obtain ⟨rfl, hrest⟩ := be32Bytes_counted_inj he hf hcounted
    exact ⟨by rw [be16Bytes_inj hid], hrest⟩
  all_goals exact absurd (List.cons.inj h).1 (by decide)

theorem spellEvents_inj {es fs : List Event} (hes : ∀ e ∈ es, EventFits e)
    (hfs : ∀ e ∈ fs, EventFits e) (h : spellEvents es = spellEvents fs) : es = fs := by
  induction es generalizing fs with
  | nil =>
    cases fs with
    | nil => rfl
    | cons f fs => exact absurd (List.append_eq_nil_iff.mp h.symm).1 (spellEvent_ne_nil f)
  | cons e es ih =>
    cases fs with
    | nil => exact absurd (List.append_eq_nil_iff.mp h).1 (spellEvent_ne_nil e)
    | cons f fs =>
      obtain ⟨he, hes'⟩ := List.forall_mem_cons.mp hes
      obtain ⟨hf, hfs'⟩ := List.forall_mem_cons.mp hfs
      obtain ⟨rfl, hrest⟩ := spellEvent_append_inj he hf h
      rw [ih hes' hfs' hrest]

end

/-- Settles O12: each event's spelling says where it ends, so the lists agree event by event. -/
theorem eventSpellingIsUnambiguous : Obligations.EventSpellingIsUnambiguous := by
  intro es fs hfits h
  have hfits' : ∀ e ∈ es ++ fs, EventFits e := fun e he => by
    have := hfits e he
    cases e <;> exact this
  obtain ⟨hes, hfs⟩ := List.forall_mem_append.mp hfits'
  exact spellEvents_inj hes hfs h

/-- Settles O8: twelve closed runs of the two decoders. -/
theorem writtenOutWordsDecode : Obligations.WrittenOutWordsDecode := by
  unfold Obligations.WrittenOutWordsDecode
  decide

end Sys2Proof.Machine

namespace Sys2Proof

/-! ## The XOR fold (R14, R124) and the recognized codes (R82, R130) -/

section
variable {bs s t : List Byte}

/-- R124: XOR is commutative and associative, so the fold does not see the order of the bytes. -/
theorem xorfold_perm (h : s.Perm t) : xorfold s = xorfold t := by
  induction h with
  | nil => rfl
  | cons b _ ih => simp only [xorfold_cons, ih]
  | swap a b s => simp only [xorfold_cons, ← BitVec.xor_assoc, BitVec.xor_comm a b]
  | trans _ _ ih ih' => exact ih.trans ih'

/-- The checksum test of R122 (the last byte is the fold of those before it) says that the whole fold
is 0 (R81). -/
theorem checksum_iff_xorfold_eq_zero {n : Nat} (h : bs.length = n + 1) :
    xorfold (bs.take n) = bs.getD n 0 ↔ xorfold bs = 0 := by
  have hn : n < bs.length := by omega
  have hsplit : bs.take n ++ [bs.getD n 0] = bs := by
    rw [List.getD_eq_getElem _ _ hn, List.take_concat_get', List.take_of_length_le h.le]
  have hfold : xorfold bs = xorfold (bs.take n) ^^^ bs.getD n 0 := by
    conv => lhs; rw [← hsplit]
    simp
  rw [hfold]
  exact BitVec.xor_eq_zero_iff.symm

theorem exists_typeOf {b : Byte} (h : b ∈ [(1 : Byte), 2, 3, 4, 5]) : ∃ ty, typeOf b = some ty :=
  Option.isSome_iff_exists.mp ((recognized_iff b).mpr h)

end

/-! ## DECODE's checks, by offset (R122, R123) -/

/-- The payload length that bytes 1 and 2 declare (R80). -/
def declaredLength (bs : List Byte) : Nat := (bs.getD 1 0).toNat * 256 + (bs.getD 2 0).toNat

section
variable {bs : List Byte} {ty : MsgType} {m : Message}

theorem decodeWire_unknownType (h4 : 4 ≤ bs.length) (hty : typeOf (bs.getD 0 0) = none) :
    decodeWire bs = .error .unknownType := by
  match bs, h4 with
  | b0 :: b1 :: b2 :: b3 :: r, _ =>
    have hb0 : typeOf b0 = none := hty
    simp [decodeWire_cons, hb0]

/-- Past the type check, DECODE compares the two lengths and then tests the fold of the whole. -/
theorem decodeWire_of_type (h4 : 4 ≤ bs.length) (hty : typeOf (bs.getD 0 0) = some ty) :
    decodeWire bs =
      if bs.length ≠ declaredLength bs + 4 then .error .lengthMismatch
      else if xorfold bs ≠ 0 then .error .checksumMismatch
      else .ok { type := ty, payload := (bs.drop 3).take (declaredLength bs) } := by
  match bs, h4 with
  | b0 :: b1 :: b2 :: b3 :: r, h4 =>
    have hb0 : typeOf b0 = some ty := hty
    have hdecl : (be16 b1 b2).toNat = declaredLength (b0 :: b1 :: b2 :: b3 :: r) := be16_toNat b1 b2
    simp only [decodeWire, hb0, hdecl, List.drop_succ_cons, List.drop_zero]
    split
    · rfl
    · next hlen =>
      rw [not_not] at hlen
      have hlast : declaredLength (b0 :: b1 :: b2 :: b3 :: r) + 3 < (b0 :: b1 :: b2 :: b3 :: r).length := by
        omega
      simp only [← checksum_iff_xorfold_eq_zero hlen, List.getElem?_eq_getElem hlast,
        List.getD_eq_getElem _ _ hlast, Option.some.injEq, ne_eq, eq_comm]

/-- What DECODE accepts passes each of its checks. -/
theorem decodeWire_ok_checks (h : decodeWire bs = .ok m) :
    4 ≤ bs.length ∧ typeOf (bs.getD 0 0) = some m.type ∧ bs.length = declaredLength bs + 4 ∧
      xorfold bs = 0 := by
  have h4 : 4 ≤ bs.length := by
    by_contra hshort
    rw [(decodeWire_truncated_iff bs).mpr (by omega)] at h
    cases h
  cases hty : typeOf (bs.getD 0 0) with
  | none => rw [decodeWire_unknownType h4 hty] at h; cases h
  | some ty =>
    rw [decodeWire_of_type h4 hty] at h
    split_ifs at h with hlen hsum
    cases h
    exact ⟨h4, rfl, not_not.mp hlen, not_not.mp hsum⟩

/-- The fields of an accepted message stand at their offsets (R80, R81, R122). -/
theorem decodeWire_ok_fields (h : decodeWire bs = .ok m) :
    m.type.code = bs.getD 0 0 ∧ m.length.toNat = declaredLength bs ∧
      m.payload = (bs.drop 3).take (declaredLength bs) ∧
      m.checksum = bs.getD (3 + declaredLength bs) 0 := by
  obtain ⟨-, -, hlen, -⟩ := decodeWire_ok_checks h
  obtain ⟨hp, rfl⟩ := decodeWire_ok h
  have hwire : m.wire.length = m.payload.length + 4 := serialize_length _ _
  have hn : declaredLength m.wire = m.payload.length := by omega
  rw [hn]
  refine ⟨rfl, ofNat16_toNat hp, ?_, ?_⟩
  · simp [Message.wire, serialize, messageBody_eq]
  · rw [List.getD_eq_getElem?_getD, Nat.add_comm, Message.wire, Machine.serialize_getElem?_checksum]
    rfl

end

/-! ## Bytes changed at one offset (R125) -/

/-- The bytes with the one at offset `j` XORed with `v`: a flipped bit where `v` has one bit set. -/
def xorAt (v : Byte) (j : Nat) (bs : List Byte) : List Byte := bs.set j (bs.getD j 0 ^^^ v)

section
variable {bs : List Byte} {v : Byte} {j k : Nat}

@[simp] theorem xorAt_length : (xorAt v j bs).length = bs.length := List.length_set

theorem getD_xorAt_self (h : j < bs.length) : (xorAt v j bs).getD j 0 = bs.getD j 0 ^^^ v := by
  simp [xorAt, h]

theorem getD_xorAt_ne (h : j ≠ k) : (xorAt v j bs).getD k 0 = bs.getD k 0 := by
  simp [xorAt, h]

/-- Changing one byte changes the fold by as much. -/
theorem xorfold_xorAt (h : j < bs.length) : xorfold (xorAt v j bs) = xorfold bs ^^^ v := by
  induction bs generalizing j with
  | nil => simp at h
  | cons b bs ih =>
    cases j with
    | zero =>
      show b ^^^ v ^^^ xorfold bs = b ^^^ xorfold bs ^^^ v
      rw [BitVec.xor_assoc, BitVec.xor_comm v, BitVec.xor_assoc]
    | succ j =>
      have htail : xorfold (xorAt v j bs) = xorfold bs ^^^ v := ih (by simpa using h)
      show b ^^^ xorfold (xorAt v j bs) = b ^^^ xorfold bs ^^^ v
      rw [htail, BitVec.xor_assoc]

theorem declaredLength_xorAt (h1 : j ≠ 1) (h2 : j ≠ 2) :
    declaredLength (xorAt v j bs) = declaredLength bs := by
  rw [declaredLength, getD_xorAt_ne h1, getD_xorAt_ne h2, declaredLength]

theorem declaredLength_xorAt_ne (hv : v ≠ 0) (hj : j = 1 ∨ j = 2) (hlt : j < bs.length) :
    declaredLength (xorAt v j bs) ≠ declaredLength bs := by
  have hbyte : (bs.getD j 0 ^^^ v).toNat ≠ (bs.getD j 0).toNat := fun h =>
    hv (by simpa using BitVec.eq_of_toNat_eq h)
  rcases hj with rfl | rfl <;>
    rw [declaredLength, getD_xorAt_self hlt, getD_xorAt_ne (by decide), declaredLength] <;> omega

end

theorem oneBit_ne_zero : ∀ i < 8, (1 : Byte) <<< i ≠ 0 := by decide

end Sys2Proof

namespace Sys2Proof.Machine

/-- Settles O6: the laws of `xorfold`, one by one. -/
theorem xorfoldIgnoresByteOrder : Obligations.XorfoldIgnoresByteOrder :=
  ⟨xorfold_nil, fun b => by simp, xorfold_append, fun _ _ => xorfold_perm⟩

/-- Settles O7: `typeOf` is the partial inverse of `code`, and the five codes are its whole domain. -/
theorem messageTypeCodes : Obligations.MessageTypeCodes :=
  ⟨⟨rfl, rfl, rfl, rfl, rfl⟩, recognized_iff, typeOf_code, fun _ _ => code_of_typeOf⟩

/-! ## ENCODE and DECODE (R120, R122, R123, R129) -/

section
variable {bs : List Byte} {m : Message} {e : ErrorKind} {s : State}

theorem execEncode_unknown {tc : Byte} (h : tc ∉ [(1 : Byte), 2, 3, 4, 5]) (p : List Byte) :
    execEncode tc p s = .refused .unknownEncodeType :=
  if_pos (mt (recognized_iff tc).mp h)

theorem execEncode_tooLong {tc : Byte} {p : List Byte} (h : tc ∈ [(1 : Byte), 2, 3, 4, 5])
    (hp : Config.lenMax < p.length) : execEncode tc p s = .refused .payloadTooLong :=
  (if_neg (not_not.mpr ((recognized_iff tc).mpr h))).trans (if_pos hp)

/-- The response DECODE gives for what it reads (R122). -/
def decodeAnswer : Except ErrorKind Message → Response
  | .ok m => .message m
  | .error e => .error e

theorem exec_decode (bs : List Byte) (s : State) :
    exec (.decode bs) s = .next { s with response := decodeAnswer (decodeWire bs) } := by
  simp only [exec, execDecode]
  cases decodeWire bs <;> rfl

theorem exec_decode_ok (h : decodeWire bs = .ok m) :
    exec (.decode bs) s = .next { s with response := .message m } := by
  rw [exec_decode, h]; rfl

theorem exec_decode_error (h : decodeWire bs = .error e) :
    exec (.decode bs) s = .next { s with response := .error e } := by
  rw [exec_decode, h]; rfl

end

/-- Settles O13: a recognized byte is the code of a type, and `serialize` writes the body and its fold. -/
theorem encodeSerializes : Obligations.EncodeSerializes := by
  intro tc p s
  refine ⟨fun htc hp => ?_, fun htc => execEncode_unknown htc p, execEncode_tooLong⟩
  obtain ⟨ty, hty⟩ := exists_typeOf htc
  obtain rfl := code_of_typeOf hty
  refine ⟨messageBody ty.code p, ⟨ty, p⟩, ?_, execEncode_of_code ty hp s, serialize_length ty.code p,
    decodeWire_serialize ty hp⟩
  rw [messageBody_eq, ofNat16_toNat hp]

/-- Settles O14: the checks of DECODE in their order; the fields of an accepted message are read off its
wire form. -/
theorem decodeReportsFirstFailure : Obligations.DecodeReportsFirstFailure := by
  intro bs s len hdecl
  obtain rfl : len = declaredLength bs := hdecl
  have hanswer : ∀ {d}, decodeWire bs = d → decodeAnswer (decodeWire bs) = decodeAnswer d :=
    congrArg decodeAnswer
  refine ⟨decodeAnswer (decodeWire bs), exec_decode bs s, ?truncated, ?unknownType,
    fun h4 htc => ?recognized⟩
  case truncated => exact fun h => hanswer ((decodeWire_truncated_iff bs).mpr h)
  case unknownType =>
    exact fun h4 htc => hanswer (decodeWire_unknownType h4 ((typeOf_eq_none_iff _).mpr htc))
  case recognized =>
    obtain ⟨ty, hty⟩ := exists_typeOf htc
    have hchecks := decodeWire_of_type h4 hty
    refine ⟨fun hlen => ?mismatch, fun hlen hsum => ?checksum, fun hlen hsum => ?accepted⟩
    case mismatch => exact hanswer (hchecks.trans (if_pos hlen))
    case checksum =>
      rw [ne_eq, checksum_iff_xorfold_eq_zero (by omega)] at hsum
      exact hanswer (by rw [hchecks, if_neg (not_not.mpr hlen), if_pos hsum])
    case accepted =>
      rw [checksum_iff_xorfold_eq_zero (by omega)] at hsum
      rw [if_neg (not_not.mpr hlen), if_neg (not_not.mpr hsum)] at hchecks
      exact ⟨_, hanswer hchecks, decodeWire_ok_fields hchecks⟩

/-- Settles O15: ENCODE answers the wire form, and DECODE reads it back. -/
theorem decodeOfEncodeIsTheMessage : Obligations.DecodeOfEncodeIsTheMessage := by
  intro ty p s hp
  exact ⟨serialize ty.code p, ⟨ty, p⟩, execEncode_of_code ty hp s,
    exec_decode_ok (decodeWire_serialize ty hp), rfl, ofNat16_toNat hp, rfl, rfl⟩

/-! ## Changed bytes of an accepted message (R125) -/

section
variable {bs : List Byte} {m : Message} {v : Byte} {j k : Nat}

/-- The type byte and the length bytes stand, but the fold does not. -/
theorem decodeWire_xorAt_checksum (h : decodeWire bs = .ok m) (hv : v ≠ 0) (hj : j < bs.length)
    (h1 : j ≠ 1) (h2 : j ≠ 2) {ty : MsgType} (hty : typeOf ((xorAt v j bs).getD 0 0) = some ty) :
    decodeWire (xorAt v j bs) = .error .checksumMismatch := by
  obtain ⟨h4, -, hlen, hsum⟩ := decodeWire_ok_checks h
  have hdecl : declaredLength (xorAt v j bs) = declaredLength bs := declaredLength_xorAt h1 h2
  have hfold : xorfold (xorAt v j bs) = v := by simp [xorfold_xorAt hj, hsum]
  rw [decodeWire_of_type (xorAt_length.ge.trans' h4) hty, xorAt_length, hdecl, hfold,
    if_neg (not_not.mpr hlen), if_pos hv]

theorem decodeWire_xorAt_length (h : decodeWire bs = .ok m) (hv : v ≠ 0) (hj : j = 1 ∨ j = 2) :
    decodeWire (xorAt v j bs) = .error .lengthMismatch := by
  obtain ⟨h4, hty, hlen, -⟩ := decodeWire_ok_checks h
  have hdecl : declaredLength (xorAt v j bs) ≠ declaredLength bs :=
    declaredLength_xorAt_ne hv hj (by omega)
  rw [← getD_xorAt_ne (show j ≠ 0 by omega)] at hty
  rw [decodeWire_of_type (xorAt_length.ge.trans' h4) hty, xorAt_length, if_pos (by omega)]

/-- Two equal changes past the header cancel in the fold, and the bytes are no longer the message's. -/
theorem decodeWire_xorAt_xorAt (h : decodeWire bs = .ok m) (hv : v ≠ 0) (hj : 3 ≤ j) (hk : 3 ≤ k)
    (hjk : k ≠ j) (hjl : j < bs.length) (hkl : k < bs.length) :
    ∃ m', decodeWire (xorAt v k (xorAt v j bs)) = .ok m' ∧ m' ≠ m := by
  obtain ⟨h4, hty, hlen, hsum⟩ := decodeWire_ok_checks h
  have htype : typeOf ((xorAt v k (xorAt v j bs)).getD 0 0) = some m.type := by
    rw [getD_xorAt_ne (by omega), getD_xorAt_ne (by omega), hty]
  have hdecl : declaredLength (xorAt v k (xorAt v j bs)) = declaredLength bs := by
    rw [declaredLength_xorAt (by omega) (by omega), declaredLength_xorAt (by omega) (by omega)]
  have hfold : xorfold (xorAt v k (xorAt v j bs)) = 0 := by
    simp [xorfold_xorAt, hjl, hkl, hsum]
  have hm' := decodeWire_of_type (by simpa using h4) htype
  rw [xorAt_length, xorAt_length, hdecl, hfold, if_neg (not_not.mpr hlen), if_neg (not_not.mpr rfl)] at hm'
  refine ⟨_, hm', fun he => ?_⟩
  have hbytes : xorAt v k (xorAt v j bs) = bs :=
    ((decodeWire_ok hm').2.trans (congrArg _ he)).trans (decodeWire_ok h).2.symm
  have hbyte : bs.getD j 0 ^^^ v = bs.getD j 0 := by
    rw [← getD_xorAt_self hjl, ← getD_xorAt_ne hjk, hbytes]
  exact hv (by simpa using hbyte)

end

/-- Settles O16: a flip past the header or of the type byte shows in the fold, one of a length byte in the
declared length, and two flips of one bit past the header cancel. -/
theorem bitFlipsAreReportedByOffset : Obligations.BitFlipsAreReportedByOffset := by
  intro bs m s j i hm hj hi flipped hflipped
  have hv : (1 : Byte) <<< i ≠ 0 := oneBit_ne_zero i hi
  obtain rfl : flipped = xorAt ((1 : Byte) <<< i) j bs := hflipped
  obtain ⟨h4, hty, -, -⟩ := decodeWire_ok_checks hm
  refine ⟨fun h3 => ?past, fun h12 => ?length, fun _ hcode => ?noCode, fun h0 hcode => ?otherCode,
    fun k h3 hk hkj hkl => ?twice⟩
  case past =>
    rw [← getD_xorAt_ne (show j ≠ 0 by omega)] at hty
    exact exec_decode_error (decodeWire_xorAt_checksum hm hv hj (by omega) (by omega) hty)
  case length => exact exec_decode_error (decodeWire_xorAt_length hm hv h12)
  case noCode =>
    exact exec_decode_error
      (decodeWire_unknownType (xorAt_length.ge.trans' h4) ((typeOf_eq_none_iff _).mpr hcode))
  case otherCode =>
    obtain ⟨ty, hty'⟩ := exists_typeOf hcode
    exact exec_decode_error (decodeWire_xorAt_checksum hm hv hj (by omega) (by omega) hty')
  case twice =>
    obtain ⟨m', hm', hne⟩ := decodeWire_xorAt_xorAt hm hv h3 hk hkj hj hkl
    exact ⟨m', exec_decode_ok hm', hne⟩

/-! ## Messages in the open response (R126 to R128, R160) -/

section
variable {s t : State} {es : List Event} {e : Event} {p : List Byte}

theorem emit_eq (h : s.response = .events es) :
    emit e s = { s with response := .events (es ++ [e]) } := by
  simp [emit, h]

theorem emit_eq_shift (h : s.response = .events es) :
    emit e s = shift (es ++ [e]) [] (beginEvents s) := by
  simp [emit, shift, beginEvents, h]

theorem route_short (hp : p.length < 4) : route p s = .next (emit (.err .invalidSegment) s) := by
  rw [route, parsePayload_short.mpr hp]

/-- R191: storing a segment appends at most one event. -/
theorem insertSegment_appends {g : Segment} (hs : s.response = .events es)
    (h : insertSegment g s = .next t) :
    ∃ fs : List Event, fs.length ≤ 1 ∧ t.response = .events (es ++ fs) := by
  rcases insertSegment_events h with hr | hr | ⟨f, -, hr⟩
  · exact ⟨[], by simp, by simp [hr, hs]⟩
  · exact ⟨[.err .invalidSegment], by simp, by simp [hr, hs]⟩
  · exact ⟨[.frame f], by simp, by simp [hr, hs]⟩

/-- R160: routing appends at most one event. -/
theorem route_appends (hs : s.response = .events es) (h : route p s = .next t) :
    ∃ fs : List Event, fs.length ≤ 1 ∧ t.response = .events (es ++ fs) := by
  unfold route at h
  split at h
  · exact insertSegment_appends hs h
  · next e _ =>
    cases h
    exact ⟨[.err e], by simp, by simp [hs]⟩

/-- Storing a segment does not look at the events before its own, so a Data message answers its message
and then what the segment answers alone. -/
theorem exec_msgData_of_segment {g : Segment} (hs : s.response = .events es)
    (hg : parsePayload p = .ok g) :
    exec (.msgData p) s = andThen (insertSegment g (beginEvents s)) fun u =>
      .next (shift (es ++ [.msg ⟨.data, p⟩]) [] u) := by
  simp only [exec, execMsgData, route, hg, emit_eq_shift hs, insertSegment_shift]

/-- R200: the store is full only where it has no room for the payload's bytes. -/
theorem route_completes (hi : s.TableInv) (hroom : fits s.cfg (usage s.table + p.length) = true) :
    ∃ t, route p s = .next t := by
  cases h : route p s with
  | next t => exact ⟨t, rfl⟩
  | fault f => exact absurd h (route_ne_fault hi f)
  | refused r =>
    unfold route at h
    split at h
    · next g hg =>
      obtain ⟨-, hfull⟩ := insertSegment_refused h
      have hlen : g.data.length ≤ p.length := by rw [parsePayload_ok hg, segmentPayload_length]; omega
      have hle : usageAfter g s ≤ usage s.table + p.length :=
        (usageAfter_le g s).trans (Nat.add_le_add_left hlen _)
      rw [fits_mono hle hroom] at hfull
      cases hfull
    · cases h

end

/-- Settles O18: each of the four is `emit` of its own message. -/
theorem plainMessagesAreOnlyEmitted : Obligations.PlainMessagesAreOnlyEmitted := by
  intro p s es hs
  have hemit : ∀ m, Host.Outcome.next (emit (.msg m) s) =
      (.next { s with response := .events (es ++ [.msg m]) } : Result) := fun m => by rw [emit_eq hs]
  exact ⟨hemit ⟨.control, p⟩, hemit ⟨.error, p⟩, hemit ⟨.ack, p⟩, hemit ⟨.info, p⟩⟩

/-- Settles O19: a short payload parses to no segment; any other is `exec_msgData_of_segment`, with the
events of ADD_SEGMENT read behind the message. -/
theorem dataMessagesAreRouted : Obligations.DataMessagesAreRouted := by
  intro p s es hs
  refine ⟨fun hp => ?short, ?segment⟩
  case short =>
    show route p (emit (.msg ⟨.data, p⟩) s) = _
    rw [route_short hp, emit_eq (es := es ++ [.msg ⟨.data, p⟩]) (by simp [hs]), emit_eq hs]
    simp
  case segment =>
    rintro f1 f0 k t d f rfl hf
    obtain rfl : be16 f1 f0 = f := BitVec.eq_of_toNat_eq ((be16_toNat f1 f0).trans hf.symm)
    have hrun := exec_msgData_of_segment (p := f1 :: f0 :: k :: t :: d) hs rfl
    refine ⟨fun u hu => ?completes, fun r hr => ?refused⟩
    case completes =>
      have hadd : insertSegment ⟨be16 f1 f0, k, t, d⟩ (beginEvents s) = .next u := hu
      obtain ⟨fs, -, hfs⟩ := insertSegment_appends (es := []) rfl hadd
      refine ⟨fs, hfs, ?_⟩
      rw [hrun, hadd]
      simp [shift, hfs]
    case refused =>
      have hadd : insertSegment ⟨be16 f1 f0, k, t, d⟩ (beginEvents s) = .refused r := hr
      rw [hrun, hadd]
      rfl

/-- Settles O20: with room for the payload routing completes, and what it can do is known. -/
theorem dataMessagesComplete : Obligations.DataMessagesComplete := by
  intro p s es hi hs hroom
  obtain ⟨t, ht⟩ := route_completes (s := emit (.msg ⟨.data, p⟩) s) (emit_tableInv _ hi) hroom
  have hrun : exec (.msgData p) s = .next t := ht
  obtain ⟨fs, hone, hfs⟩ := route_appends (emit_response _ s) ht
  have hrest := runMessage_sameRest (m := ⟨.data, p⟩) hrun
  exact ⟨t, fs, hrun, by simp [hfs, hs], hone, hrest.buf, hrest.mode, hrest.cfg, hrest.pending,
    hrest.faultMark, hrest.refusedMark, exec_tableInv hi hrun⟩

end Sys2Proof.Machine

namespace Sys2Proof.Machine

/-! ## Framed candidates (R155 to R157, R161, R166) -/

section
variable {s t : State} {c : List Byte} {m : Message} {e : ErrorKind} {es : List Event}

theorem Framed.length_ge (h : Framed c) : 4 ≤ c.length := by
  obtain ⟨_, _, _, _, -, hlen⟩ := h
  omega

/-- R161: a framed candidate that DECODE does not accept fails in one of two ways. -/
theorem Framed.error_kind (hc : Framed c) (h : decodeWire c = .error e) :
    e = .unknownType ∨ e = .checksumMismatch := by
  obtain ⟨b0, b1, b2, rest, rfl, hlen⟩ := hc
  exact decodeWire_framed_error (by simpa using hlen) h

/-- R80, R166: the wire form of a message is as long as its own header declares. -/
theorem framed_wire (h : m.payload.length ≤ Config.lenMax) : Framed m.wire := by
  refine ⟨m.type.code, BitVec.ofNat 8 (m.payload.length / 256), BitVec.ofNat 8 m.payload.length,
    m.payload ++ [m.checksum], ?_, ?_⟩
  · simp [Message.wire, serialize, messageBody, Message.checksum, be16Bytes_length_of_le h]
  · rw [be16_toNat_of_le h, Message.wire, serialize_length]

/-- R156: an accepted candidate is run as its message's instruction. -/
theorem runCandidate_ok (h : decodeWire c = .ok m) (s : State) : runCandidate c s = exec m.instr s := by
  simp only [runCandidate, h, exec_instr]

/-- R157: a bad candidate is its error and nothing else. -/
theorem runCandidate_bad (h : decodeWire c = .error e) (hk : e = .unknownType ∨ e = .checksumMismatch)
    (s : State) : runCandidate c s = .next (emit (.err e) s) := by
  obtain rfl | rfl := hk <;> simp only [runCandidate, h]

/-- The two ways a candidate completes: its message ran, or its error was emitted. -/
theorem runCandidate_next (h : runCandidate c s = .next t) :
    (∃ m, decodeWire c = .ok m ∧ runMessage m s = .next t) ∨
      ∃ e, decodeWire c = .error e ∧ t = emit (.err e) s := by
  unfold runCandidate at h
  split at h
  · next m hm => exact .inl ⟨m, hm, h⟩
  · next he => cases h; exact .inr ⟨_, he, rfl⟩
  · next he => cases h; exact .inr ⟨_, he, rfl⟩
  all_goals cases h

end

/-- Settles O31: a framed candidate has a fourth byte and the length DECODE asks for; any other error that
DECODE could give is a fault. -/
theorem framedCandidatesFitTheirLength : Obligations.FramedCandidatesFitTheirLength := by
  refine ⟨fun c hc => ⟨fun h => ?_, fun h => ?_, fun e => hc.error_kind⟩, fun c s h => ?_⟩
  · simpa using hc.error_kind h
  · simpa using hc.error_kind h
  · obtain h | h := h <;> simp only [runCandidate, h]

/-! ## The mode machine (R153 to R155, R168) -/

section
variable {s t : State} {b0 b1 b2 ty : Byte} {rest : List Byte} {len : Half}

theorem modeStep_header (hm : s.mode = .awaitingHeader) (hb : s.buf = b0 :: b1 :: b2 :: rest) :
    modeStep s = some (.next { s with mode := .awaitingPayload b0 (be16 b1 b2) }) := by
  simp only [modeStep, hm, hb]

theorem modeStep_candidate (hm : s.mode = .awaitingPayload ty len) (hb : len.toNat + 4 ≤ s.buf.length) :
    modeStep s = some (runCandidate (s.buf.take (len.toNat + 4))
      { s with buf := s.buf.drop (len.toNat + 4), mode := .awaitingHeader }) := by
  simp only [modeStep, hm, if_neg (not_lt.mpr hb), extract, takeBuf, if_pos hb]

/-- R33: between operations BUF is short of a header, or of the candidate its latched header declares. -/
theorem deframer_cases (h : deframerOk s.buf s.mode = true) :
    (s.mode = .awaitingHeader ∧ s.buf.length ≤ 2) ∨
      ∃ b0 b1 b2 rest, s.mode = .awaitingPayload b0 (be16 b1 b2) ∧ s.buf = b0 :: b1 :: b2 :: rest ∧
        s.buf.length ≤ (be16 b1 b2).toNat + 3 := by
  rcases modeStep_none.mp (modeStep_none_of_ok h) with hshort | ⟨ty, len, hm, hlt⟩
  · exact .inl hshort
  · obtain ⟨b1, b2, rest, hb, rfl⟩ := latched_of_ok h ty len hm
    exact .inr ⟨ty, b1, b2, rest, hm, hb, by omega⟩

/-- R158: BUF holds no complete candidate, so one that begins with BUF's bytes goes beyond them. -/
theorem buf_length_lt_of_framed {c x y : List Byte} (hd : deframerOk s.buf s.mode = true)
    (hc : Framed c) (h : s.buf ++ x = c ++ y) : s.buf.length < c.length := by
  rcases deframer_cases hd with ⟨-, hshort⟩ | ⟨b0, b1, b2, rest, -, hb, hlen⟩
  · have := hc.length_ge
    omega
  · obtain ⟨c0, c1, c2, tail, rfl, hcl⟩ := hc
    simp only [hb, List.cons_append, List.cons.injEq] at h
    obtain ⟨-, rfl, rfl, -⟩ := h
    omega

end

/-- Settles O33: each row is an equation of `modeStep`, and the last one of `runCandidate`. -/
theorem modeMachineRows : Obligations.ModeMachineRows := by
  intro s
  refine ⟨fun hm hb => ?_, fun b0 b1 b2 rest hm hb => ?_, fun ty len hm => ⟨fun hb => ?_, fun hb => ?_⟩⟩
  · exact modeStep_none.mpr (.inl ⟨hm, by omega⟩)
  · exact ⟨be16 b1 b2, be16_toNat b1 b2, modeStep_header hm hb⟩
  · exact modeStep_none.mpr (.inr ⟨ty, len, hm, hb⟩)
  · exact ⟨_, modeStep_candidate hm hb, fun m hok => runCandidate_ok hok _,
      fun e hk hbad => runCandidate_bad hbad hk _⟩

/-! ## FEED's loop, candidate by candidate (R151 to R157) -/

section
variable {s t u : State} {c rest : List Byte}

/-- The latch is no more than the header at the front of BUF: the loop runs alike without it. -/
theorem feedRun_awaitingHeader (hl : Latched s) : feedRun s = feedRun { s with mode := .awaitingHeader } := by
  cases hm : s.mode with
  | awaitingHeader => rw [← hm]
  | awaitingPayload ty len =>
    obtain ⟨b1, b2, rest, hb, rfl⟩ := hl ty len hm
    have hlatch := modeStep_header (s := { s with mode := .awaitingHeader }) rfl hb
    rw [← hm] at hlatch
    rw [feedRun_go hlatch, andThen_next]

/-- R153: fewer than three bytes wait. -/
theorem feedRun_short (hl : Latched s) (hb : s.buf.length ≤ 2) :
    feedRun s = .next { s with mode := .awaitingHeader } := by
  rw [feedRun_awaitingHeader hl]
  exact feedRun_stop (modeStep_none.mpr (.inl ⟨rfl, hb⟩))

/-- R154: a header with fewer bytes than its candidate needs is latched, and waits. -/
theorem feedRun_incomplete {b0 b1 b2 : Byte} (hl : Latched s) (hb : s.buf = b0 :: b1 :: b2 :: rest)
    (hlen : rest.length ≤ (be16 b1 b2).toNat) :
    feedRun s = .next { s with mode := .awaitingPayload b0 (be16 b1 b2) } := by
  have hlatch := modeStep_header (s := { s with mode := .awaitingHeader }) rfl hb
  rw [feedRun_awaitingHeader hl, feedRun_go hlatch, andThen_next]
  exact feedRun_stop (modeStep_none.mpr (.inr ⟨b0, be16 b1 b2, rfl, by simp only [hb, List.length_cons]; omega⟩))

/-- R155: a complete candidate is taken from BUF and run, and the loop goes on. -/
theorem feedRun_candidate (hl : Latched s) (hc : Framed c) (hb : s.buf = c ++ rest) :
    feedRun s = andThen (runCandidate c { s with buf := rest, mode := .awaitingHeader }) feedRun := by
  obtain ⟨b0, b1, b2, tail, rfl, hlen⟩ := hc
  have hlatch := modeStep_header (s := { s with mode := .awaitingHeader }) rfl hb
  have hrun := modeStep_candidate (s := { s with mode := .awaitingPayload b0 (be16 b1 b2) }) rfl
    (by rw [hb, List.length_append]; omega)
  rw [feedRun_awaitingHeader hl, feedRun_go hlatch, andThen_next, feedRun_go hrun, hb, ← hlen,
    List.take_left, List.drop_left]

theorem feedRun_stops (h : feedRun s = .next t) : modeStep t = none :=
  (feedRun_induct (P := fun _ => True) (fun _ _ _ _ => trivial) trivial h).2

/-- Induction along FEED's loop, from the state where it exits back to the one it began in (R152). -/
theorem loop_induct {P : State → Prop}
    (repetition : ∀ s, (∀ t, modeStep s = some (.next t) → P t) → P s) (s : State) : P s := by
  induction hn : loopMeasure s using Nat.strong_induction_on generalizing s with
  | _ n ih => exact repetition s fun t h => ih _ (hn ▸ modeStep_measure h) t rfl

end

/-! ## The events of FEED (R159) -/

section
variable {s t u : State} {c d : List Byte} {es : List Event}

theorem andThen_congr {o : Result} {k l : State → Result} (h : ∀ t, o = .next t → k t = l t) :
    andThen o k = andThen o l := by
  cases o with
  | next t => exact h t rfl
  | fault f => rfl
  | refused r => rfl

theorem shift_nil (es : List Event) (s : State) :
    shift es [] s = respond (.events (es ++ Response.eventList s.response)) s := by
  simp [shift, respond]

/-- The response does not decide whether FEED's loop exits. -/
theorem modeStep_respond {r : Response} (h : modeStep s = none) : modeStep (respond r s) = none := by
  rw [modeStep_none] at h ⊢
  exact h

/-- FEED's loop with a chunk behind BUF is FEED of that chunk, its events behind those of the open
response. -/
theorem feedRun_shift_nil (d : List Byte) (s : State) :
    feedRun (shift [] d s) = andThen (execFeed d s) fun u =>
      .next (respond (.events (Response.eventList s.response ++ Response.eventList u.response)) u) := by
  have hstart : shift [] d s = shift (Response.eventList s.response) [] (appendBuf d (beginEvents s)) := by
    simp [shift, appendBuf, beginEvents]
  rw [hstart, feedRun_shift, ← execFeed_eq]
  refine andThen_congr fun u hu => ?_
  rw [shift_nil]
  exact feedRun_stop (modeStep_respond (feedRun_stops (s := appendBuf d (beginEvents s)) hu))

/-- R163 of two chunks: FEED of both at once is FEED of the one and then of the other. -/
theorem execFeed_append (c d : List Byte) (s : State) :
    execFeed (c ++ d) s = andThen (execFeed c s) fun t => andThen (execFeed d t) fun u =>
      .next (respond (.events (Response.eventList t.response ++ Response.eventList u.response)) u) := by
  have hstart : appendBuf (c ++ d) (beginEvents s) = shift [] d (appendBuf c (beginEvents s)) := by
    simp [shift, appendBuf, beginEvents]
  rw [execFeed_eq, hstart, feedRun_shift, ← execFeed_eq]
  exact andThen_congr fun t _ => feedRun_shift_nil d t

/-- R155: where BUF and the chunk begin with a complete candidate, FEED runs it, and then is FEED of the
bytes after it. -/
theorem execFeed_candidate {cand rest : List Byte} (hd : deframerOk s.buf s.mode = true)
    (hc : Framed cand) (h : s.buf ++ c = cand ++ rest) :
    execFeed c s =
      andThen (runCandidate cand { s with buf := [], mode := .awaitingHeader, response := .events [] })
        fun t => andThen (execFeed rest t) fun u =>
          .next (respond (.events (Response.eventList t.response ++ Response.eventList u.response)) u) := by
  rw [execFeed_eq, feedRun_candidate (latched_append (latched_of_ok hd)) hc h]
  have hrest := runCandidate_shift cand [] rest
    { s with buf := [], mode := .awaitingHeader, response := .events [] }
  refine (congrArg (andThen · feedRun) hrest).trans ?_
  rw [andThen_assoc]
  exact andThen_congr fun t _ => feedRun_shift_nil rest t

/-- R164: an empty chunk does nothing but open the list of events. -/
theorem execFeed_nil (hd : deframerOk s.buf s.mode = true) : execFeed [] s = .next (beginEvents s) := by
  have hstart : appendBuf [] (beginEvents s) = beginEvents s := by simp [appendBuf, beginEvents]
  rw [execFeed_eq, hstart]
  exact feedRun_stop (modeStep_none_of_ok (s := beginEvents s) hd)

/-- R159: the candidates FEED takes from BUF and the chunk, with their events in stream order. -/
theorem execFeed_stream (hd : deframerOk s.buf s.mode = true) (h : execFeed c s = .next t) :
    ∃ (cs : List (List Byte)) (gs : List (List Event)),
      s.buf ++ c = cs.flatten ++ t.buf ∧ (∀ x ∈ cs, Framed x) ∧
      List.Forall₂ CandidateEvents cs gs ∧ t.response = .events gs.flatten :=
  feedRun_stream (latched_append (latched_of_ok hd)) ⟨[], rfl⟩ h

end

/-- Settles O26: BUF alone holds no complete candidate, so the loop exits at once. -/
theorem feedOfNothingChangesNothing : Obligations.FeedOfNothingChangesNothing :=
  fun _ hd => execFeed_nil hd

/-- Settles O22: the loop splits the bytes as `execFeed_stream` says, and ends with the deframer invariant. -/
theorem feedEventsAreInStreamOrder : Obligations.FeedEventsAreInStreamOrder := by
  intro c s t hd h
  obtain ⟨cs, gs, hsplit, hframed, hevents, hresp⟩ := execFeed_stream hd h
  exact ⟨cs, gs, hsplit, hframed, hevents, hresp, execFeed_deframerOk hd h⟩

/-- Settles O27: the two states in which the loop exits at once, but for the latch. -/
theorem feedWaitsForMissingBytes : Obligations.FeedWaitsForMissingBytes := by
  intro c s hd
  have hl := latched_append (c := c) (latched_of_ok hd)
  refine ⟨fun hshort => feedRun_short hl hshort, fun b0 b1 b2 rest len hb hlen hrest => ?_⟩
  obtain rfl : be16 b1 b2 = len := BitVec.eq_of_toNat_eq ((be16_toNat b1 b2).trans hlen.symm)
  exact feedRun_incomplete hl hb hrest

/-- Settles O28: the wire form of the message is the candidate, and DECODE reads the message back. -/
theorem feedRunsAcceptedMessages : Obligations.FeedRunsAcceptedMessages := by
  intro c rest m s hd hwf hsplit
  have hlen : m.payload.length ≤ Config.lenMax := (instr_wellFormed m).mp hwf
  rw [encode_instr] at hsplit
  rw [← runCandidate_ok (decodeWire_serialize m.type hlen)]
  exact execFeed_candidate hd (framed_wire hlen) hsplit

/-- Settles O29: a bad candidate opens the response with its error; FEED of the rest begins its own list. -/
theorem feedReportsBadCandidates : Obligations.FeedReportsBadCandidates := by
  intro c rest cand e s hd hc hbad hsplit
  have hk := hc.error_kind hbad
  refine ⟨hk, (execFeed_candidate hd hc hsplit).trans ?_⟩
  rw [runCandidate_bad hbad hk]
  rfl

/-- Settles O24: the deframer invariant after FEED, its two cases written out. -/
theorem feedLeavesNoCompleteCandidate : Obligations.FeedLeavesNoCompleteCandidate := by
  intro c s t hd h
  rcases deframer_cases (execFeed_deframerOk hd h) with ⟨hm, hshort⟩ | ⟨b0, b1, b2, rest, hm, hb, hlen⟩
  · exact ⟨.inl ⟨hm, hshort⟩, by omega⟩
  · exact ⟨.inr ⟨b0, b1, b2, rest, be16 b1 b2, hm, hb, be16_toNat b1 b2, hlen⟩, by omega⟩

/-- Settles O32: a second candidate would have at least four bytes, and the first alone takes all of BUF
and the one byte. -/
theorem feedByteCompletesAtMostOne : Obligations.FeedByteCompletesAtMostOne := by
  refine fun b s => ⟨rfl, fun t hd h => ?_⟩
  obtain ⟨cs, gs, hsplit, hframed, hevents, hresp⟩ := execFeed_stream (c := [b]) hd h
  match hevents with
  | .nil => exact .inl hresp
  | .cons hes .nil => exact .inr ⟨_, _, hes, by simpa using hresp⟩
  | .cons (a := x) _ (.cons (a := y) _ _) =>
    have hx : Framed x := hframed x (by simp)
    have hy : 4 ≤ y.length := (hframed y (by simp)).length_ge
    rw [List.flatten_cons, List.append_assoc] at hsplit
    have hlt := buf_length_lt_of_framed hd hx hsplit
    have hlen := congrArg List.length hsplit
    simp only [List.length_append, List.length_singleton, List.flatten_cons] at hlen
    omega

/-- FEED_EACH is FEED of each byte as a chunk of its own (R100, R162). -/
theorem feedEach_eq_feeds (bs : List Byte) (s : State) :
    performAll (feedEach bs) s = performAll ((bs.map fun b => [b]).map Instr.feed) s := by
  induction bs generalizing s with
  | nil => rfl
  | cons b bs ih =>
    have hrest : performAll (feedEach bs) = performAll ((bs.map fun b => [b]).map Instr.feed) := funext ih
    simp only [feedEach, List.map_cons, performAll] at hrest ⊢
    rw [hrest]
    rfl

/-- R163: any chunks, one after the other. -/
theorem performAll_feeds {s : State} (hd : deframerOk s.buf s.mode = true) (cs : List (List Byte)) :
    performAll (cs.map Instr.feed) s = execFeed cs.flatten s := by
  induction cs generalizing s with
  | nil => exact (execFeed_nil hd).symm
  | cons c cs ih =>
    rw [List.flatten_cons, execFeed_append]
    refine andThen_congr fun t ht => ?_
    rw [ih (execFeed_deframerOk hd ht)]

/-- Settles O23: `performAll_feeds`, for chunks of one byte too. -/
theorem feedIsChunkInvariant : Obligations.FeedIsChunkInvariant := by
  refine fun s hd => ⟨performAll_feeds hd, fun bs => ?_⟩
  rw [feedEach_eq_feeds, performAll_feeds hd, ← List.flatMap_def, List.flatMap_singleton']
  rfl

/-! ## FEED's loop ends (R152) -/

section
variable {s t : State}

theorem feedLoop_go {n : Nat} (h : modeStep s = some (.next t)) : feedLoop (n + 1) s = feedLoop n t := by
  simp only [feedLoop, h, andThen_next]

/-- The repetitions that latch a header before MODE is `AwaitingPayload`. -/
def latchSteps : Mode → Nat
  | .awaitingHeader => 1
  | .awaitingPayload _ _ => 0

theorem latchSteps_le (m : Mode) : latchSteps m ≤ 1 := by
  cases m <;> simp [latchSteps]

/-- Each candidate takes two repetitions, the first one only one if its header is latched already, and a
last header may still be latched after them. -/
theorem feedRun_repetitions (hl : Latched s) (h : feedRun s = .next t) :
    ∃ cs : List (List Byte), s.buf = cs.flatten ++ t.buf ∧ (∀ x ∈ cs, Framed x) ∧
      ∀ n, 2 * cs.length + latchSteps s.mode ≤ n → feedLoop (n + 1) s = .next t := by
  induction s using loop_induct with
  | repetition s ih =>
    cases hm : modeStep s with
    | none =>
      rw [feedRun_stop hm] at h
      cases h
      exact ⟨[], by simp, by simp, fun n _ => by simp only [feedLoop, hm]⟩
    | some o =>
      rw [feedRun_go hm] at h
      obtain ⟨u, rfl, hu⟩ := andThen_eq_next.mp h
      obtain ⟨cs, hsplit, hframed, hloop⟩ := ih u hm (modeStep_latched hm) hu
      rcases modeStep_some hm with ⟨hmode, b0, b1, b2, rest, -, ho⟩ | ⟨ty, len, hmode, hb, ho⟩
      · cases ho
        refine ⟨cs, hsplit, hframed, fun n hn => ?_⟩
        simp only [hmode, latchSteps] at hn
        obtain ⟨n, rfl⟩ := Nat.exists_eq_succ_of_ne_zero (n := n) (by omega)
        rw [feedLoop_go hm]
        exact hloop n (by simp only [latchSteps]; omega)
      · have hr := runCandidate_sameRest ho.symm
        refine ⟨s.buf.take (len.toNat + 4) :: cs, ?_, ?_, fun n hn => ?_⟩
        · rw [List.flatten_cons, List.append_assoc, ← hsplit, hr.buf, List.take_append_drop]
        · exact List.forall_mem_cons.mpr ⟨candidate_framed hl hmode hb, hframed⟩
        · have := latchSteps_le u.mode
          rw [List.length_cons] at hn
          obtain ⟨n, rfl⟩ := Nat.exists_eq_succ_of_ne_zero (n := n) (by omega)
          rw [feedLoop_go hm]
          exact hloop n (by omega)

end

/-- Settles O25: `feedRun_repetitions`, with one repetition to latch the first header if that is to come. -/
theorem feedLoopEnds : Obligations.FeedLoopEnds := by
  intro c s t hd h
  obtain ⟨cs, hsplit, hframed, hloop⟩ := feedRun_repetitions (latched_append (latched_of_ok hd)) h
  exact ⟨cs, hsplit, hframed, hloop _ (Nat.add_le_add_left (latchSteps_le _) _)⟩

/-! ## FEED completes (R150, R167) -/

section
variable {s t : State} {c p : List Byte} {m : Message} {o : Result}

/-- R49: routing a payload adds at most its bytes to the store. -/
theorem route_usage (hi : s.TableInv) (h : route p s = .next t) :
    usage t.table ≤ usage s.table + p.length := by
  unfold route at h
  split at h
  · next g hg =>
    have hlen : p.length = g.data.length + 4 := by rw [parsePayload_ok hg, segmentPayload_length]
    have := insertSegment_usage hi h
    omega
  · cases h
    exact Nat.le_add_right _ _

theorem runMessage_usage (hi : s.TableInv) (h : runMessage m s = .next t) :
    usage t.table ≤ usage s.table + m.payload.length := by
  by_cases hm : m.type = .data
  · rw [runMessage_eq, if_pos hm] at h
    exact route_usage (s := emit (.msg m) s) (emit_tableInv _ hi) h
  · rw [(runMessage_table hm h).1]
    exact Nat.le_add_right _ _

theorem runMessage_completes (hi : s.TableInv)
    (hroom : fits s.cfg (usage s.table + m.payload.length) = true) : ∃ t, runMessage m s = .next t := by
  rw [runMessage_eq]
  split
  · exact route_completes (emit_tableInv _ hi) hroom
  · exact ⟨_, rfl⟩

theorem payload_length_le (h : decodeWire c = .ok m) : m.payload.length ≤ c.length := by
  rw [(decodeWire_ok h).2, Message.wire, serialize_length]
  omega

theorem runCandidate_usage (hi : s.TableInv) (h : runCandidate c s = .next t) :
    usage t.table ≤ usage s.table + c.length := by
  rcases runCandidate_next h with ⟨m, hm, hrun⟩ | ⟨e, -, rfl⟩
  · exact (runMessage_usage hi hrun).trans (Nat.add_le_add_left (payload_length_le hm) _)
  · exact Nat.le_add_right _ _

theorem runCandidate_completes (hi : s.TableInv) (hc : Framed c)
    (hroom : fits s.cfg (usage s.table + c.length) = true) : ∃ t, runCandidate c s = .next t := by
  cases hd : decodeWire c with
  | ok m =>
    rw [runCandidate_ok hd, exec_instr]
    exact runMessage_completes hi (fits_mono (Nat.add_le_add_left (payload_length_le hd) _) hroom)
  | error e => exact ⟨_, runCandidate_bad hd (hc.error_kind hd) s⟩

/-- The store has room for every byte of BUF, whatever segments they carry. -/
def RoomForBuf (s : State) : Prop := fits s.cfg (usage s.table + s.buf.length) = true

/-- A repetition completes where there is room for BUF, and what it stores it has taken from BUF. -/
theorem modeStep_completes (hi : s.TableInv) (hl : Latched s) (hroom : RoomForBuf s)
    (h : modeStep s = some o) : ∃ t, o = .next t ∧ RoomForBuf t := by
  rcases modeStep_some h with ⟨-, b0, b1, b2, rest, -, rfl⟩ | ⟨ty, len, hmode, hb, rfl⟩
  · exact ⟨_, rfl, hroom⟩
  · have hi' : ({ s with buf := s.buf.drop (len.toNat + 4), mode := .awaitingHeader } : State).TableInv :=
      hi.of_eq rfl rfl
    have hlen : (s.buf.take (len.toNat + 4)).length = len.toNat + 4 := List.length_take_of_le hb
    obtain ⟨t, ht⟩ := runCandidate_completes hi' (candidate_framed hl hmode hb)
      (fits_mono (by rw [hlen]; exact Nat.add_le_add_left hb _) hroom)
    have husage := runCandidate_usage hi' ht
    have hr := runCandidate_sameRest ht
    refine ⟨t, ht, ?_⟩
    rw [RoomForBuf, hr.cfg, hr.buf]
    refine fits_mono ?_ hroom
    simp only [hlen, List.length_drop] at husage ⊢
    omega

theorem feedRun_completes (hi : s.TableInv) (hl : Latched s) (hroom : RoomForBuf s) :
    ∃ t, feedRun s = .next t := by
  induction s using loop_induct with
  | repetition s ih =>
    cases hm : modeStep s with
    | none => exact ⟨s, feedRun_stop hm⟩
    | some o =>
      obtain ⟨t, rfl, ht⟩ := modeStep_completes hi hl hroom hm
      rw [feedRun_go hm]
      exact ih t hm (modeStep_keeps hi hm) (modeStep_latched hm) ht

end

/-- Settles O21: with room for all the bytes no repetition of the loop is refused, and none faults. -/
theorem feedCompletes : Obligations.FeedCompletes := by
  intro c s hi hroom
  have hroom' : RoomForBuf (appendBuf c (beginEvents s)) := by
    simpa [RoomForBuf, Nat.add_assoc] using hroom
  obtain ⟨t, ht⟩ := feedRun_completes (s := appendBuf c (beginEvents s)) (hi.toTableInv.of_eq rfl rfl)
    (latched_append (latched_of_ok hi.deframer)) hroom'
  have hfeed : exec (.feed c) s = .next t := ht
  obtain ⟨-, gs, -, -, -, hresp⟩ := execFeed_stream hi.deframer hfeed
  obtain ⟨hfault, hrefused, hcfg, hpending⟩ := exec_rest hfeed
  have hinv := exec_inv hi hfeed
  refine ⟨⟨t, gs.flatten, hfeed, hresp, hinv, hcfg, hpending, hfault, hrefused⟩, ?_⟩
  rintro b rfl
  exact ⟨t, gs.flatten, hfeed, hresp, hinv⟩

/-! ## What the events of FEED say (R127, R161, R165, R245) -/

section
variable {s t u : State} {c : List Byte} {m : Message} {es : List Event} {e : ErrorKind}

/-- The errors among the events of a candidate (R157, R160). -/
theorem CandidateEvents.error_kind (h : CandidateEvents c es) (he : .err e ∈ es) :
    e = .unknownType ∨ e = .checksumMismatch ∨ e = .invalidSegment := by
  cases h with
  | bad e' _ hk => exact (by simpa using he : e = e') ▸ hk.imp_right .inl
  | good m hd => simp at he
  | rejected m hd ht => exact .inr (.inr (by simpa using he))
  | completed m g f hd ht hg hf => simp at he

/-- The message a candidate decodes to is among its events (R156). -/
theorem CandidateEvents.mem_of_decodes (h : CandidateEvents c es) (hm : decodeWire c = .ok m) :
    .msg m ∈ es := by
  cases h with
  | bad e he _ => simp [he] at hm
  | good m' hd => simp_all
  | rejected m' hd _ => simp_all
  | completed m' g f hd _ _ _ => simp_all

/-- The errors of a response are those that FEED reports. -/
def FeedErrors (r : Response) : Prop :=
  ∀ e, .err e ∈ Response.eventList r → e = .unknownType ∨ e = .checksumMismatch ∨ e = .invalidSegment

theorem modeStep_feedErrors (hs : FeedErrors s.response) (h : modeStep s = some (.next t)) :
    FeedErrors t.response := by
  rcases modeStep_events h with hr | ⟨c, es, hes, hr⟩
  · rwa [hr]
  · intro e he
    rw [hr, eventList_events, List.mem_append] at he
    exact he.elim (hs e) hes.error_kind

theorem execFeed_feedErrors (h : execFeed c s = .next t) : FeedErrors t.response :=
  (feedRun_induct (P := fun u => FeedErrors u.response) (s := appendBuf c (beginEvents s))
    (fun _ _ => modeStep_feedErrors) (fun _ he => nomatch he) h).1

/-- Without a Data message a candidate does not touch the reassembler. -/
theorem runCandidate_table (hm : ∀ m, decodeWire c = .ok m → m.type ≠ .data)
    (h : runCandidate c s = .next t) : t.table = s.table ∧ t.discardCount = s.discardCount := by
  rcases runCandidate_next h with ⟨m, hd, hrun⟩ | ⟨e, -, rfl⟩
  · exact runMessage_table (hm m hd) hrun
  · exact ⟨rfl, rfl⟩

/-- What FEED's loop keeps, from the state `s` it began in: TABLE and DISCARD_COUNT are as they were unless
a Data message has been emitted. -/
def TableNeedsData (s u : State) : Prop :=
  (∀ m, .msg m ∈ Response.eventList u.response → m.type ≠ .data) →
    u.table = s.table ∧ u.discardCount = s.discardCount

theorem modeStep_tableNeedsData (hu : TableNeedsData s u) (h : modeStep u = some (.next t)) :
    TableNeedsData s t := by
  rcases modeStep_some h with ⟨-, b0, b1, b2, rest, -, ho⟩ | ⟨ty, len, -, -, ho⟩
  · cases ho
    exact hu
  · obtain ⟨es, hes, hr⟩ := runCandidate_events ho.symm
    intro hdata
    rw [hr, eventList_events] at hdata
    obtain ⟨htable, hcount⟩ := hu fun m hm => hdata m (List.mem_append_left _ hm)
    obtain ⟨htable', hcount'⟩ := runCandidate_table
      (fun m hd => hdata m (List.mem_append_right _ (hes.mem_of_decodes hd))) ho.symm
    exact ⟨htable'.trans htable, hcount'.trans hcount⟩

theorem execFeed_tableNeedsData (h : execFeed c s = .next t) : TableNeedsData s t :=
  (feedRun_induct (P := TableNeedsData s) (s := appendBuf c (beginEvents s))
    (fun _ _ => modeStep_tableNeedsData) (fun _ => ⟨rfl, rfl⟩) h).1

end

/-- Settles O30: the loop emits only the errors of candidates; incomplete bytes wait, by O27. -/
theorem feedNeverEmitsTruncated : Obligations.FeedNeverEmitsTruncated := by
  refine ⟨fun c s t es h hr e he => ?_, fun c s hd hwait => ?_⟩
  · have hk := execFeed_feedErrors h e (by rw [hr]; exact he)
    obtain rfl | rfl | rfl := hk <;> decide
  · obtain ⟨hshort, hheader⟩ := feedWaitsForMissingBytes c s hd
    obtain hb | ⟨b0, b1, b2, rest, hb, hrest⟩ := hwait
    · exact ⟨_, hshort hb, rfl⟩
    · rw [← be16_toNat] at hrest
      exact ⟨_, hheader b0 b1 b2 rest _ hb (be16_toNat b1 b2) hrest, rfl⟩

/-- Settles O34: `exec_rest` for the fields no instruction writes, `execFeed_tableNeedsData` for TABLE and
DISCARD_COUNT; FEED_BYTE is a FEED. -/
theorem feedFrame : Obligations.FeedFrame := by
  intro i s t es hi h hr
  obtain ⟨c, hc⟩ : ∃ c, execFeed c s = .next t := by
    obtain ⟨c, rfl⟩ | ⟨b, rfl⟩ := hi
    · exact ⟨c, h⟩
    · exact ⟨[b], h⟩
  obtain ⟨hfault, hrefused, hcfg, hpending⟩ := exec_rest h
  refine ⟨hfault, hrefused, hcfg, hpending, fun hdata => execFeed_tableNeedsData hc ?_⟩
  rwa [hr]

end Sys2Proof.Machine

namespace Sys2Proof.Machine

/-! ## A segment with and without a record of its frame (R191 to R198) -/

section
variable {g : Segment} {s u : State} {A : FrameAssembly}

theorem exec_addSegment (f : Half) (k t : Byte) (d : List Byte) (s : State) :
    exec (.addSegment f k t d) s = insertSegment ⟨f, k, t, d⟩ (beginEvents s) := rfl

theorem storedRecord_of_record (h : lookupFrame g.frameID s.table = some A) :
    storedRecord g s = ⟨g.frameID, A.totalSegments, storeSlot g.segmentID g.data A.segments⟩ := by
  simp [storedRecord, effectiveTotal, currentSegments, h]

theorem storedRecord_fresh (h : lookupFrame g.frameID s.table = none) :
    storedRecord g s = ⟨g.frameID, g.totalSegments, [(g.segmentID, g.data)]⟩ := by
  simp [storedRecord, effectiveTotal, currentSegments, storeSlot, h]

theorem usageAfter_of_record (h : lookupFrame g.frameID s.table = some A) :
    usageAfter g s =
      usage s.table - ((slot g.segmentID A.segments).getD []).length + g.data.length := by
  simp [usageAfter, currentSegments, h]

theorem usageAfter_fresh (h : lookupFrame g.frameID s.table = none) :
    usageAfter g s = usage s.table + g.data.length := by
  simp [usageAfter, currentSegments, h]

theorem accepted_of_record (h : lookupFrame g.frameID s.table = some A) :
    Accepted g s ↔ g.segmentID.toNat < g.totalSegments.toNat ∧
      g.segmentID.toNat < A.totalSegments.toNat := by
  simp [Accepted, effectiveTotal, h, BitVec.lt_def]

theorem accepted_fresh (h : lookupFrame g.frameID s.table = none) :
    Accepted g s ↔ g.segmentID.toNat < g.totalSegments.toNat := by
  simp [Accepted, effectiveTotal, h, BitVec.lt_def]

/-- R197: a segment fills its record where it is the one still missing. -/
theorem completes_of_record (hi : s.TableInv) (h : lookupFrame g.frameID s.table = some A) :
    Completes g s ↔
      slot g.segmentID A.segments = none ∧ A.segments.length + 1 = A.totalSegments.toNat := by
  obtain ⟨-, hwf, -, hlen⟩ := recordOk_iff.mp (hi.records A (lookupFrame_some h).1)
  rw [Completes, storedRecord_of_record h, storeSlot_length hwf]
  split
  · next hnone => simp [hnone]
  · next hheld => simp [hheld, hlen.ne]

theorem completes_fresh (h : lookupFrame g.frameID s.table = none) :
    Completes g s ↔ g.totalSegments.toNat = 1 := by
  rw [Completes, storedRecord_fresh h, List.length_singleton, eq_comm]

theorem evict_within (h : s.table.length ≤ s.cfg.maxFrames) : evict s = s :=
  if_neg (by omega)

theorem evict_over (h : s.cfg.maxFrames < s.table.length) :
    evict s = { s with table := s.table.drop 1, discardCount := s.discardCount + 1 } :=
  if_pos h

theorem keepRecord_of_record (h : lookupFrame g.frameID s.table = some A) :
    keepRecord g s = { s with table := replaceFrame (storedRecord g s) s.table } := by
  simp only [keepRecord, h]

/-- R194: the record that the first segment of an incomplete frame leaves. -/
theorem insertSegment_creates (h : lookupFrame g.frameID s.table = none)
    (hk : g.segmentID.toNat < g.totalSegments.toNat) (h1 : g.totalSegments.toNat ≠ 1)
    (hroom : fits s.cfg (usage s.table + g.data.length) = true) :
    insertSegment g s = .next (keepRecord g s) :=
  insertSegment_incomplete ((accepted_fresh h).mpr hk) (by rwa [usageAfter_fresh h])
    (mt (completes_fresh h).mp h1)

/-- What storing a segment has done where it answers a next state: the segment was rejected, or it made
its frame complete, or its record is kept. -/
theorem insertSegment_next (h : insertSegment g s = .next u) :
    (¬ Accepted g s ∧ u = emit (.err .invalidSegment) s) ∨
    (Accepted g s ∧ Completes g s ∧ ∃ payload,
      gather (storedRecord g s).segments (storedRecord g s).totalSegments.toNat = some payload ∧
      u = emit (.frame ⟨g.frameID, payload⟩) { s with table := removeFrame g.frameID s.table }) ∨
    (Accepted g s ∧ ¬ Completes g s ∧ u = keepRecord g s) := by
  rcases insertSegment_cases g s with ⟨ha, he⟩ | ⟨-, -, he⟩ | ⟨ha, -, hc, he⟩ | ⟨ha, -, hc, he⟩ <;>
    rw [he] at h
  · cases h; exact .inl ⟨ha, rfl⟩
  · cases h
  · unfold completeFrame at h
    split at h <;> cases h
    next payload hp => exact .inr (.inl ⟨ha, hc, payload, hp, rfl⟩)
  · cases h; exact .inr (.inr ⟨ha, hc, rfl⟩)

/-- The records of other frames: as they were, but for the oldest where the new record of an incomplete
frame evicts it (R198). -/
theorem insertSegment_others (h : insertSegment g s = .next u) :
    (u.table.filter (fun B => B.frameID ≠ g.frameID) =
        s.table.filter (fun B => B.frameID ≠ g.frameID) ∧ u.discardCount = s.discardCount) ∨
    (lookupFrame g.frameID s.table = none ∧ s.cfg.maxFrames ≤ s.table.length ∧
      u.table.filter (fun B => B.frameID ≠ g.frameID) = s.table.drop 1 ∧
      u.discardCount = s.discardCount + 1 ∧ u.response = s.response) := by
  rcases insertSegment_next h with ⟨-, rfl⟩ | ⟨-, -, payload, -, rfl⟩ | ⟨-, -, rfl⟩
  · exact .inl ⟨rfl, rfl⟩
  · exact .inl ⟨by simp [removeFrame], rfl⟩
  cases hl : lookupFrame g.frameID s.table with
  | some A =>
    rw [keepRecord_of_record hl]
    exact .inl ⟨replaceFrame_others rfl, rfl⟩
  | none =>
    have hne := lookupFrame_eq_none_iff.mp hl
    rw [keepRecord_created hl]
    by_cases hfull : s.cfg.maxFrames ≤ s.table.length
    · rw [evict_over (by simpa using Nat.lt_succ_of_le hfull)]
      refine .inr ⟨rfl, hfull, ?_, rfl, rfl⟩
      cases hT : s.table with
      | nil => rfl
      | cons B R =>
        rw [hT] at hne
        have hR : R.filter (fun B => B.frameID ≠ g.frameID) = R :=
          removeFrame_of_ne fun C hC => hne C (List.mem_cons_of_mem _ hC)
        simp only [List.cons_append, List.drop_succ_cons, List.drop_zero, List.filter_append, hR]
        simp [storedRecord]
    · rw [evict_within (by simpa using not_le.mp hfull)]
      exact .inl ⟨by simp [List.filter_append, storedRecord], rfl⟩

/-- R200: with room for its data a segment is never refused. -/
theorem insertSegment_completes (hi : s.TableInv)
    (hroom : fits s.cfg (usage s.table + g.data.length) = true) : ∃ u, insertSegment g s = .next u := by
  cases h : insertSegment g s with
  | next u => exact ⟨u, rfl⟩
  | fault r => exact absurd h (insertSegment_ne_fault hi r)
  | refused r =>
    obtain ⟨-, hfull⟩ := insertSegment_refused h
    rw [fits_mono (usageAfter_le g s) hroom] at hfull
    cases hfull

/-- R200: the refusal depends on the segment, TABLE and the configuration alone. -/
theorem insertSegment_refused_iff {r : Refusal} : insertSegment g s = .refused r ↔
    r = .storeFull ∧ Accepted g s ∧ fits s.cfg (usageAfter g s) = false := by
  constructor
  · intro h
    obtain ⟨rfl, hfull⟩ := insertSegment_refused h
    refine ⟨rfl, ?_, hfull⟩
    by_contra ha
    rw [insertSegment_rejected ha] at h
    cases h
  · rintro ⟨rfl, ha, hfull⟩
    exact insertSegment_storeFull ha hfull

end

/-! ## Full segment maps (R197) -/

section
variable {m : List (Byte × List Byte)} {p : List Byte} {n : Nat} {b : Byte}

/-- A canonical map with its keys below a total is full exactly where no slot is missing. -/
theorem segments_full_iff (hw : SegmentsWf m) (hb : ∀ e ∈ m, e.1 < b) :
    m.length = b.toNat ↔ ∀ i < b.toNat, (slot (BitVec.ofNat 8 i) m).isSome = true := by
  have hkeys : ∀ e ∈ m, e.1.toNat < b.toNat := fun e he => hb e he
  constructor
  · intro hlen i hi
    have hmem : i ∈ m.map (fun e => e.1.toNat) := by
      rw [keys_eq_range hw hkeys hlen]; exact List.mem_range.mpr hi
    obtain ⟨e, he, rfl⟩ := List.mem_map.mp hmem
    rw [BitVec.ofNat_toNat, BitVec.setWidth_eq, slot_of_mem (d := e.2) hw he]
    rfl
  · intro hall
    have hnd : (m.map (fun e => e.1.toNat)).Nodup :=
      List.pairwise_map.mpr ((List.pairwise_map.mp hw).imp fun h => Nat.ne_of_lt h)
    have hsub : m.map (fun e => e.1.toNat) ⊆ List.range b.toNat := by
      intro x hx
      obtain ⟨e, he, rfl⟩ := List.mem_map.mp hx
      exact List.mem_range.mpr (hkeys e he)
    have hsup : List.range b.toNat ⊆ m.map (fun e => e.1.toNat) := by
      intro i hi
      have hi := List.mem_range.mp hi
      obtain ⟨d, hd⟩ := Option.isSome_iff_exists.mp (hall i hi)
      refine List.mem_map.mpr ⟨_, mem_of_slot hd, ?_⟩
      have := b.isLt
      simp only [BitVec.toNat_ofNat]
      omega
    have hle := (hnd.subperm hsub).length_le
    have hge := (List.nodup_range.subperm hsup).length_le
    simp only [List.length_map, List.length_range] at hle hge
    omega

/-- The concatenation of a map reads its slots in ascending order. -/
theorem gather_eq_slots (h : gather m n = some p) :
    p = ((List.range n).map fun i => (slot (BitVec.ofNat 8 i) m).getD []).flatten := by
  induction n generalizing p with
  | zero => cases h; rfl
  | succ n ih =>
    simp only [gather] at h
    split at h
    · next q d hq hd =>
      cases h
      simp [List.range_succ, ← ih hq, hd]
    · cases h

theorem segmentBytes_le (h : ∀ e ∈ m, e.2.length ≤ n) : segmentBytes m ≤ m.length * n := by
  induction m with
  | nil => simp [segmentBytes]
  | cons e m ih =>
    have he := h e List.mem_cons_self
    have := ih fun x hx => h x (List.mem_cons_of_mem _ hx)
    simp only [segmentBytes, List.length_cons, Nat.add_mul, Nat.one_mul]
    omega

end

end Sys2Proof.Machine

namespace Sys2Proof.Machine

/-! ## One segment (R190 to R204) -/

section
variable {g : Segment} {s u : State} {A : FrameAssembly} {p : List Byte}

/-- R197: the payload of a frame that a segment completes, read off the map with that segment stored. -/
theorem insertSegment_emits (hi : s.TableInv) (ha : Accepted g s)
    (hroom : fits s.cfg (usageAfter g s) = true) (hc : Completes g s) :
    insertSegment g s = .next (emit (.frame ⟨g.frameID,
      ((List.range (storedRecord g s).totalSegments.toNat).map fun i =>
        (slot (BitVec.ofNat 8 i) (storedRecord g s).segments).getD []).flatten⟩)
      { s with table := removeFrame g.frameID s.table }) := by
  obtain ⟨hwf, hkeys, -⟩ := storedRecord_wf hi ha
  have hgather := gather_full hwf hkeys hc
  rw [insertSegment_complete ha hroom hc, completeFrame]
  simp only [hgather]
  rw [← gather_eq_slots hgather]

/-- R197: where the segment makes its frame complete, every slot is there. -/
theorem completes_iff_slots (hi : s.TableInv) (ha : Accepted g s) : Completes g s ↔
    ∀ i < (effectiveTotal g s).toNat, i ≠ g.segmentID.toNat →
      (slot (BitVec.ofNat 8 i) (currentSegments g s)).isSome = true := by
  obtain ⟨hwf, hkeys, -⟩ := storedRecord_wf hi ha
  rw [Completes, segments_full_iff hwf hkeys]
  refine forall₂_congr fun i hlt => ?_
  have hbyte : BitVec.ofNat 8 i = g.segmentID ↔ i = g.segmentID.toNat := by
    have := (effectiveTotal g s).isLt
    simp only [storedRecord, BitVec.toNat_eq, BitVec.toNat_ofNat] at hlt ⊢
    omega
  by_cases hk : i = g.segmentID.toNat
  · simp [storedRecord, hk]
  · simp [storedRecord, slot_storeSlot_ne (mt hbyte.mp hk), hk]

theorem mem_currentSegments {e : Byte × List Byte} (he : e ∈ currentSegments g s) :
    ∃ A ∈ s.table, e ∈ A.segments := by
  cases h : lookupFrame g.frameID s.table with
  | some A => exact ⟨A, (lookupFrame_some h).1, by simpa [currentSegments, h] using he⟩
  | none => simp [currentSegments, h] at he

/-- R197, R204: an answered frame is the data of the map with the segment stored, which is full. -/
theorem insertSegment_frame {fr : ReassembledFrame} (hi : s.TableInv) (hs : s.response = .events [])
    (h : insertSegment g s = .next u) (hfr : u.response = .events [.frame fr]) :
    Completes g s ∧ fr.payload.length = segmentBytes (storedRecord g s).segments := by
  rcases insertSegment_next h with ⟨-, rfl⟩ | ⟨ha, hc, payload, hp, rfl⟩ | ⟨-, -, rfl⟩
  · simp [hs] at hfr
  · obtain ⟨hwf, hkeys, -⟩ := storedRecord_wf hi ha
    obtain rfl := Option.some.inj (hp.symm.trans (gather_full hwf hkeys hc))
    simp only [emit_response, hs, eventList_events, List.nil_append, Response.events.injEq,
      List.cons.injEq, Event.frame.injEq, and_true] at hfr
    exact ⟨hc, by rw [← hfr, segmentBytes_eq]⟩
  · simp [hs] at hfr

end

/-- Settles O36: PARSE_SEGMENT reads the first four bytes and looks at nothing else. -/
theorem parseSegmentSplitsThePayload : Obligations.ParseSegmentSplitsThePayload := by
  intro p s
  refine ⟨fun hshort => ?_, ?_⟩
  · simp only [exec, execParseSegment, parsePayload_short.mpr hshort, respond]
  · rintro f1 f0 k t d rfl
    exact ⟨⟨be16 f1 f0, k, t, d⟩, rfl, be16_toNat f1 f0, rfl, rfl, rfl⟩

/-- Settles O37: in both cases the segment is not accepted. -/
theorem outOfRangeSegmentsAreRejected : Obligations.OutOfRangeSegmentsAreRejected := by
  intro f k t d s
  refine ⟨fun hown => insertSegment_rejected ?_, fun A hA hrecorded => insertSegment_rejected ?_⟩
  · rintro ⟨hlt, -⟩
    exact absurd hlt (not_lt.mpr hown)
  · intro ha
    exact absurd ((accepted_of_record hA).mp ha).2 (not_lt.mpr hrecorded)

/-- Settles O38: the first segment makes a record that `evict` keeps or makes room for; with a record, or
with a frame answered, `insertSegment_others` leaves the case without an eviction. -/
theorem newRecordsEvictTheOldest : Obligations.NewRecordsEvictTheOldest := by
  refine ⟨fun f k t d s hk h1 hnone hroom => ?_, fun f k t d s u h hor => ?_⟩
  · have hrun : exec (.addSegment f k t d) s =
        .next (evict { beginEvents s with table := s.table ++ [⟨f, t, [(k, d)]⟩] }) := by
      have hfresh : lookupFrame f (beginEvents s).table = none := hnone
      rw [exec_addSegment, insertSegment_creates hfresh hk h1 hroom, keepRecord_created hfresh,
        storedRecord_fresh hfresh]
      rfl
    refine ⟨fun hlt => ?_, fun B rest hT hfull => ?_⟩
    · rw [hrun, evict_within (by simpa using hlt)]
      rfl
    · rw [hrun, evict_over (by simpa using Nat.lt_succ_of_le hfull)]
      simp [hT, beginEvents]
  · obtain hsame | ⟨hnone, -, -, -, hresp⟩ := insertSegment_others h
    · exact hsame.symm
    · obtain ⟨A, hA⟩ | ⟨fr, hfr⟩ := hor
      · exact absurd (hA.symm.trans hnone) (by simp)
      · exact absurd (hfr.symm.trans hresp) (by simp)

/-- Settles O39: the record put back is the one with the segment stored. -/
theorem segmentsAreStoredInTheirRecord : Obligations.SegmentsAreStoredInTheirRecord := by
  intro f k t d s A hi hk hA hkA hroom hmissing
  have hl : lookupFrame f (beginEvents s).table = some A := hA
  have hinc : ¬ Completes ⟨f, k, t, d⟩ (beginEvents s) := by
    rw [completes_of_record (s := beginEvents s) (hi.of_eq rfl rfl) hl]
    exact fun ⟨hnone, hlast⟩ => absurd hlast (hmissing hnone).ne
  have hstored := storedRecord_of_record (g := ⟨f, k, t, d⟩) hl
  refine ⟨storedRecord ⟨f, k, t, d⟩ (beginEvents s), ?_, rfl, by rw [hstored], ?_, fun j hj => ?_⟩
  · rw [exec_addSegment, insertSegment_incomplete ((accepted_of_record hl).mpr ⟨hk, hkA⟩)
      (by rwa [usageAfter_of_record hl]) hinc, keepRecord_of_record hl]
    rfl
  · rw [hstored, slot_storeSlot_self]
  · rw [hstored, slot_storeSlot_ne hj]

/-- Settles O40: `insertSegment_emits` with the payload's slots read off the record before the segment, a
frame of one segment, and a segment whose record is kept. -/
theorem fullFramesAreEmitted : Obligations.FullFramesAreEmitted := by
  refine ⟨fun f k t d s A hi hk hA hkA hroom hslot hlast => ?full,
    fun f k t d s h1 h0 hnone hroom => ?single, fun f k t d s u hi hk h => ?kept⟩
  case full =>
    have hb : (beginEvents s).TableInv := hi.of_eq rfl rfl
    have hl : lookupFrame f (beginEvents s).table = some A := hA
    have ha : Accepted ⟨f, k, t, d⟩ (beginEvents s) := (accepted_of_record hl).mpr ⟨hk, hkA⟩
    have hc : Completes ⟨f, k, t, d⟩ (beginEvents s) :=
      (completes_of_record hb hl).mpr ⟨hslot, hlast⟩
    constructor
    · rw [exec_addSegment, insertSegment_emits hb ha (fits_mono (usageAfter_le _ _) hroom) hc,
        storedRecord_of_record hl, emit_eq (es := []) rfl]
      have hslots : ∀ n ∈ List.range A.totalSegments.toNat,
          (slot (BitVec.ofNat 8 n) (storeSlot k d A.segments)).getD [] =
            if n = k.toNat then d else (slot (BitVec.ofNat 8 n) A.segments).getD [] := by
        intro n hn
        have hbyte : BitVec.ofNat 8 n = k ↔ n = k.toNat := by
          have := List.mem_range.mp hn
          have := A.totalSegments.isLt
          simp only [BitVec.toNat_eq, BitVec.toNat_ofNat]
          omega
        split
        · next hn => rw [hbyte.mpr hn, slot_storeSlot_self]; rfl
        · next hn => rw [slot_storeSlot_ne (mt hbyte.mp hn)]
      rw [List.map_congr_left hslots]
      rfl
    · simpa [effectiveTotal, currentSegments, hA] using (completes_iff_slots hb ha).mp hc
  case single =>
    have hl : lookupFrame f (beginEvents s).table = none := hnone
    have ha : Accepted ⟨f, k, t, d⟩ (beginEvents s) :=
      (accepted_fresh hl).mpr (show k.toNat < t.toNat by omega)
    obtain rfl : k = 0 := BitVec.eq_of_toNat_eq h0
    obtain rfl : t = 1 := BitVec.eq_of_toNat_eq h1
    rw [exec_addSegment, insertSegment_complete ha (by rwa [usageAfter_fresh hl])
      ((completes_fresh hl).mpr rfl), completeFrame, storedRecord_fresh hl]
    have hremove : removeFrame f (beginEvents s).table = s.table :=
      removeFrame_of_ne (lookupFrame_eq_none_iff.mp hnone)
    simp only [hremove]
    rfl
  case kept =>
    have hb : (beginEvents s).TableInv := hi.of_eq rfl rfl
    have hkept : Accepted ⟨f, k, t, d⟩ (beginEvents s) → ¬ Completes ⟨f, k, t, d⟩ (beginEvents s) →
        u.response = .events [] := by
      intro ha hc
      rcases insertSegment_next h with ⟨hna, -⟩ | ⟨-, hc', -⟩ | ⟨-, -, rfl⟩
      · exact absurd ha hna
      · exact absurd hc' hc
      · exact keepRecord_response
    refine ⟨fun hnone h1 => ?_, fun A hA hkA hmissing => ?_⟩
    · have hl : lookupFrame f (beginEvents s).table = none := hnone
      exact hkept ((accepted_fresh hl).mpr hk) (mt (completes_fresh hl).mp h1)
    · have hl : lookupFrame f (beginEvents s).table = some A := hA
      refine hkept ((accepted_of_record hl).mpr ⟨hk, hkA⟩) ?_
      rw [completes_of_record hb hl]
      rintro ⟨hslot, hlast⟩
      exact hmissing.elim (absurd hslot) (absurd hlast ·.ne)

/-- Settles O41: the refusal is that of `insertSegment_refused_iff`, and a refused step only sets the
mark (`advance_of_refused`). -/
theorem storeFullIsRefused : Obligations.StoreFullIsRefused := by
  intro f k t d s hk
  have hover : ∀ {cap n}, s.cfg.storeCap = some cap → cap < n → fits s.cfg n = false :=
    fun hcap hlt => by simp [fits, hcap, hlt]
  refine ⟨fun cap hnone hcap hlt => ?fresh, fun A cap hA hkA hcap hlt => ?record,
    fun hcap r hr => ?unbounded, fun c cs hclear hfirst hdecode hr => ?step⟩
  case fresh =>
    have hl : lookupFrame f (beginEvents s).table = none := hnone
    refine insertSegment_storeFull ((accepted_fresh hl).mpr hk) ?_
    rw [usageAfter_fresh hl]
    exact hover hcap hlt
  case record =>
    have hl : lookupFrame f (beginEvents s).table = some A := hA
    refine insertSegment_storeFull ((accepted_of_record hl).mpr ⟨hk, hkA⟩) ?_
    rw [usageAfter_of_record hl]
    exact hover hcap hlt
  case unbounded =>
    obtain ⟨-, hfull⟩ := insertSegment_refused hr
    simp [fits, hcap] at hfull
  case step =>
    obtain ⟨-, ha, hfull⟩ := insertSegment_refused_iff.mp hr
    have hrun : exec (.addSegment f k t d) { s with pending := cs } = .refused .storeFull :=
      insertSegment_storeFull ha hfull
    have hstep : step s = .refused .storeFull := by
      rw [step_of_decoded hclear hfirst hdecode, hrun]
      rfl
    rw [advance_of_refused hstep]
    exact ⟨hstep, rfl, rfl, rfl, rfl, rfl, by simp, fun hnone => by simp [hnone]⟩

/-- Settles O44: the new record took the place of the oldest, whose frameID no other record has; a later
segment of that frame then creates a record as any first segment does. -/
theorem evictedFramesStartAfresh : Obligations.EvictedFramesStartAfresh := by
  intro s B rest f k t d hi hT hfull hnone hk h1 hroom
  have hrun := (newRecordsEvictTheOldest.1 f k t d s hk h1 hnone hroom).2 B rest hT hfull.ge
  have hgone : lookupFrame B.frameID (rest ++ [⟨f, t, [(k, d)]⟩]) = none := by
    have hunique := hi.unique
    rw [hT, List.map_cons, List.nodup_cons] at hunique
    rw [hT, lookupFrame_eq_none_iff] at hnone
    refine lookupFrame_eq_none_iff.mpr fun C hC hCB => ?_
    rcases List.mem_append.mp hC with hC | hC
    · exact hunique.1 (hCB ▸ List.mem_map_of_mem hC)
    · obtain rfl := List.mem_singleton.mp hC
      exact hnone B List.mem_cons_self hCB.symm
  refine ⟨_, hrun, rfl, rfl, hgone, fun k' d' hk' h1' hroom' =>
    ⟨_, insertSegment_creates hgone hk' h1' hroom', keepRecord_response, ?_⟩⟩
  refine (keepRecord_lookup (g := ⟨B.frameID, k', B.totalSegments, d'⟩)
    ((exec_tableInv hi hrun).of_eq rfl rfl)).trans ?_
  exact congrArg some (storedRecord_fresh hgone)

/-- Settles O45: the payload is the data of the map with the segment stored, whose bytes
`segmentBytes_storeSlot` counts and whose slots are at most 255. -/
theorem framePayloadIsTheSumOfItsSegments : Obligations.FramePayloadIsTheSumOfItsSegments := by
  intro f k t d s u fr hi h hfr
  have hb : (beginEvents s).TableInv := hi.of_eq rfl rfl
  obtain ⟨hc, hlen⟩ := insertSegment_frame hb rfl h hfr
  rw [hlen]
  refine ⟨fun A hA => ?record, fun hnone => ?fresh, fun n hd hn => ?bound⟩
  case record =>
    rw [storedRecord_of_record (s := beginEvents s) hA]
    exact segmentBytes_storeSlot (recordOk_iff.mp (hi.records A (lookupFrame_some hA).1)).2.1
  case fresh =>
    rw [storedRecord_fresh (s := beginEvents s) hnone]
    simp [segmentBytes]
  case bound =>
    have hdata : ∀ e ∈ (storedRecord ⟨f, k, t, d⟩ (beginEvents s)).segments, e.2.length ≤ n := by
      intro e he
      rcases mem_storeSlot he with rfl | he
      · exact hd
      · obtain ⟨A, hA, heA⟩ := mem_currentSegments he
        exact hn A hA e heA
    refine (segmentBytes_le hdata).trans (Nat.mul_le_mul_right n ?_)
    rw [hc]
    exact Nat.le_of_lt_succ (BitVec.isLt _)

/-- Settles O46: `exec_sameRest` for the fields ADD_SEGMENT does not write, `insertSegment_others` for the
records of other frames. -/
theorem addSegmentFrame : Obligations.AddSegmentFrame := by
  intro f k t d s u h
  have hrest := exec_sameRest (by simp) (by simp) (by simp) h
  refine ⟨hrest.buf, hrest.mode, hrest.faultMark, hrest.refusedMark, hrest.cfg, hrest.pending, ?_⟩
  exact (insertSegment_others h).imp id fun ⟨hnone, hfull, hothers, hcount, _⟩ =>
    ⟨hnone, hfull, hothers, hcount⟩

end Sys2Proof.Machine

namespace Sys2Proof.Machine

/-! ## The segments of one frame (R199, R201) -/

/-- The `n`-th segment of a frame of `N` segments, `p` being `n` and its data. -/
def numbered (f : Half) (N : Nat) (p : Nat × List Byte) : Segment :=
  ⟨f, BitVec.ofNat 8 p.1, BitVec.ofNat 8 N, p.2⟩

/-- ADD_SEGMENT for that segment. -/
def submit (f : Half) (N : Nat) (p : Nat × List Byte) : Instr :=
  .addSegment f (BitVec.ofNat 8 p.1) (BitVec.ofNat 8 N) p.2

/-- TABLE holds `c n` as the `n`-th of the `N` segments of frame `f`, whether or not there is a record. -/
structure FrameHolds (f : Half) (N : Nat) (c : Nat → Option (List Byte)) (s : State) : Prop where
  total : ∀ A, lookupFrame f s.table = some A → A.totalSegments = BitVec.ofNat 8 N
  slots : ∀ n < N, (lookupFrame f s.table).bind (fun A => slot (BitVec.ofNat 8 n) A.segments) = c n

/-- What a frame holds once the segments `ps` are stored in turn: the later data replaces the earlier
(R196). -/
def storedAll (c : Nat → Option (List Byte)) (ps : List (Nat × List Byte)) : Nat → Option (List Byte) :=
  ps.foldl (fun c p => Function.update c p.1 (some p.2)) c

/-- The segments of the numbers `ns` of the data `ds`. -/
def segmentsOf (ds : List (List Byte)) (ns : List Nat) : List (Nat × List Byte) :=
  ns.map fun n => (n, ds.getD n [])

section
variable {f : Half} {N k n : Nat} {c : Nat → Option (List Byte)} {s t u : State} {p : Nat × List Byte}
  {ps : List (Nat × List Byte)} {ds : List (List Byte)} {ks ns : List Nat}

theorem FrameHolds.fresh (h : lookupFrame f s.table = none) : FrameHolds f N (fun _ => none) s :=
  ⟨by simp [h], by simp [h]⟩

theorem FrameHolds.of_lookup_eq (hc : FrameHolds f N c s)
    (h : lookupFrame f t.table = lookupFrame f s.table) : FrameHolds f N c t :=
  ⟨h ▸ hc.total, h ▸ hc.slots⟩

theorem FrameHolds.currentSegments (hc : FrameHolds f N c s) (hn : n < N) :
    slot (BitVec.ofNat 8 n) (currentSegments (numbered f N p) s) = c n := by
  rw [← hc.slots n hn, Machine.currentSegments, numbered]
  cases lookupFrame f s.table <;> rfl

theorem FrameHolds.effectiveTotal (hc : FrameHolds f N c s) :
    effectiveTotal (numbered f N p) s = BitVec.ofNat 8 N := by
  rw [Machine.effectiveTotal, numbered]
  cases h : lookupFrame f s.table with
  | some A => exact hc.total A h
  | none => rfl

/-- A number below a total of at most 255 is the byte that spells it. -/
theorem toNat_ofNat_of_le (h : n ≤ 255) : (BitVec.ofNat 8 n).toNat = n := by
  rw [BitVec.toNat_ofNat]; omega

theorem ofNat_eq_ofNat_iff (hk : k ≤ 255) (hn : n ≤ 255) :
    BitVec.ofNat 8 n = BitVec.ofNat 8 k ↔ n = k := by
  rw [← BitVec.toNat_inj, toNat_ofNat_of_le hk, toNat_ofNat_of_le hn]

theorem FrameHolds.accepted (hc : FrameHolds f N c s) (hN : N ≤ 255) (hp : p.1 < N) :
    Accepted (numbered f N p) s := by
  have hlt : BitVec.ofNat 8 p.1 < BitVec.ofNat 8 N := by
    rw [BitVec.lt_def, toNat_ofNat_of_le hN, toNat_ofNat_of_le (by omega)]
    exact hp
  exact ⟨hlt, hc.effectiveTotal ▸ hlt⟩

theorem FrameHolds.completes_iff (hi : s.TableInv) (hc : FrameHolds f N c s) (hN : N ≤ 255)
    (hp : p.1 < N) :
    Completes (numbered f N p) s ↔ ∀ i < N, i ≠ p.1 → (c i).isSome = true := by
  rw [completes_iff_slots hi (hc.accepted hN hp), hc.effectiveTotal, toNat_ofNat_of_le hN]
  refine forall₂_congr fun i hlt => ?_
  rw [hc.currentSegments hlt, numbered, toNat_ofNat_of_le (by omega)]

theorem FrameHolds.stored_slot (hc : FrameHolds f N c s) (hN : N ≤ 255) (hp : p.1 < N) (hn : n < N) :
    slot (BitVec.ofNat 8 n) (storedRecord (numbered f N p) s).segments =
      Function.update c p.1 (some p.2) n := by
  have hbyte := ofNat_eq_ofNat_iff (k := p.1) (n := n) (by omega) (by omega)
  by_cases h : n = p.1
  · subst h
    rw [Function.update_self]
    exact slot_storeSlot_self
  · rw [Function.update_of_ne h]
    exact (slot_storeSlot_ne (mt hbyte.mp h)).trans (hc.currentSegments hn)

theorem lookupFrame_removeFrame (f : Half) (T : List FrameAssembly) :
    lookupFrame f (removeFrame f T) = none := by
  simp [lookupFrame_eq_none_iff, removeFrame]

/-- R194 to R196: a segment that leaves another one missing answers nothing and is stored. -/
theorem FrameHolds.submit_kept (hi : s.TableInv) (hc : FrameHolds f N c s) (hN : N ≤ 255)
    (hp : p.1 < N) (hk : k < N) (hkp : k ≠ p.1) (hmissing : c k = none)
    (h : exec (submit f N p) s = .next u) :
    u.response = .events [] ∧ FrameHolds f N (Function.update c p.1 (some p.2)) u := by
  have hb : (beginEvents s).TableInv := hi.of_eq rfl rfl
  have hcb : FrameHolds f N c (beginEvents s) := hc.of_lookup_eq rfl
  rcases insertSegment_next (g := numbered f N p) h with ⟨hna, -⟩ | ⟨-, hfull, -⟩ | ⟨-, -, rfl⟩
  · exact absurd (hcb.accepted hN hp) hna
  · have := (hcb.completes_iff hb hN hp).mp hfull k hk hkp
    simp [hmissing] at this
  · have hl : lookupFrame f (keepRecord (numbered f N p) (beginEvents s)).table =
        some (storedRecord (numbered f N p) (beginEvents s)) :=
      keepRecord_lookup (g := numbered f N p) hb
    refine ⟨keepRecord_response, fun A hA => ?_, fun n hn => ?_⟩
    · obtain rfl := Option.some.inj (hl.symm.trans hA)
      exact hcb.effectiveTotal
    · rw [hl]
      exact hcb.stored_slot hN hp hn

/-- R197: the segment that was the only one missing answers the frame and leaves no record. -/
theorem FrameHolds.submit_fills (hi : s.TableInv) (hc : FrameHolds f N c s) (hN : N ≤ 255)
    (hp : p.1 < N) (hheld : ∀ i < N, i ≠ p.1 → (c i).isSome = true)
    (h : exec (submit f N p) s = .next u) :
    u.response = .events [.frame ⟨f, ((List.range N).map fun n =>
      (Function.update c p.1 (some p.2) n).getD []).flatten⟩] ∧ lookupFrame f u.table = none := by
  have hb : (beginEvents s).TableInv := hi.of_eq rfl rfl
  have hcb : FrameHolds f N c (beginEvents s) := hc.of_lookup_eq rfl
  rcases insertSegment_next (g := numbered f N p) h with
    ⟨hna, -⟩ | ⟨-, -, payload, hpayload, rfl⟩ | ⟨-, hopen, -⟩
  · exact absurd (hcb.accepted hN hp) hna
  · have htotal : (storedRecord (numbered f N p) (beginEvents s)).totalSegments.toNat = N :=
      (congrArg BitVec.toNat hcb.effectiveTotal).trans (toNat_ofNat_of_le hN)
    have hslots : ∀ n ∈ List.range N,
        (slot (BitVec.ofNat 8 n) (storedRecord (numbered f N p) (beginEvents s)).segments).getD [] =
          (Function.update c p.1 (some p.2) n).getD [] := fun n hn => by
      rw [hcb.stored_slot hN hp (List.mem_range.mp hn)]
    constructor
    · rw [gather_eq_slots hpayload, htotal, List.map_congr_left hslots]
      rfl
    · exact lookupFrame_removeFrame f s.table
  · exact absurd ((hcb.completes_iff hb hN hp).mpr hheld) hopen

/-- R199: where a slot of the frame stays empty and the store has room, segments submitted back to back
answer nothing and are stored in turn. -/
theorem performAll_submits (hN : N ≤ 255) (hk : k < N) (hps : ∀ p ∈ ps, p.1 < N ∧ k ≠ p.1)
    (hi : s.TableInv) (hc : FrameHolds f N c s) (hmissing : c k = none)
    (hroom : fits s.cfg (usage s.table + (ps.map (·.2.length)).sum) = true) :
    ∃ t, performAll (ps.map (submit f N)) s = .next t ∧ t.response = .events [] ∧
      FrameHolds f N (storedAll c ps) t ∧ t.cfg = s.cfg ∧
      usage t.table ≤ usage s.table + (ps.map (·.2.length)).sum := by
  induction ps generalizing s c with
  | nil => exact ⟨_, rfl, rfl, hc.of_lookup_eq rfl, rfl, Nat.le_refl _⟩
  | cons p ps ih =>
    obtain ⟨hp, hkp⟩ := hps p List.mem_cons_self
    rw [List.map_cons, List.sum_cons, ← Nat.add_assoc] at hroom
    have hb : (beginEvents s).TableInv := hi.of_eq rfl rfl
    obtain ⟨u, hu⟩ : ∃ u, exec (submit f N p) s = .next u :=
      insertSegment_completes hb (fits_mono (Nat.le_add_right _ _) hroom)
    obtain ⟨hquiet, hcu⟩ := hc.submit_kept hi hN hp hk hkp hmissing hu
    have husage : usage u.table ≤ usage s.table + p.2.length := insertSegment_usage hb hu
    have hcfg : u.cfg = s.cfg := (exec_rest hu).2.2.1
    obtain ⟨t, ht, htquiet, hct, htcfg, htusage⟩ :=
      ih (fun q hq => hps q (List.mem_cons_of_mem _ hq)) (exec_tableInv hi hu) hcu
        (by rwa [Function.update_of_ne hkp])
        (hcfg ▸ fits_mono (Nat.add_le_add_right husage _) hroom)
    refine ⟨respond (.events []) t, ?_, rfl, hct.of_lookup_eq rfl, htcfg.trans hcfg, ?_⟩
    · simp [performAll, hu, ht, hquiet, htquiet]
    · simp only [respond_table, List.map_cons, List.sum_cons]
      omega

/-! ### The segments of a frame's data -/

theorem storedAll_cons (c : Nat → Option (List Byte)) (p : Nat × List Byte)
    (ps : List (Nat × List Byte)) :
    storedAll c (p :: ps) = storedAll (Function.update c p.1 (some p.2)) ps := rfl

theorem storedAll_append (c : Nat → Option (List Byte)) (ps qs : List (Nat × List Byte)) :
    storedAll c (ps ++ qs) = storedAll (storedAll c ps) qs := List.foldl_append

theorem storedAll_segmentsOf (c : Nat → Option (List Byte)) (ds : List (List Byte)) (ns : List Nat)
    (n : Nat) : storedAll c (segmentsOf ds ns) n = if n ∈ ns then some (ds.getD n []) else c n := by
  induction ns generalizing c with
  | nil => rfl
  | cons k ns ih =>
    refine (ih _).trans ?_
    by_cases hk : n = k
    · subst hk; simp
    · simp [hk]

theorem map_getD_range (ds : List (List Byte)) :
    (List.range ds.length).map (fun n => ds.getD n []) = ds :=
  List.ext_getElem (by simp) fun n h1 h2 => by simp [List.getElem?_eq_getElem h2]

theorem map_submit_segmentsOf (f : Half) (N : Nat) (ds : List (List Byte)) (ns : List Nat) :
    (segmentsOf ds ns).map (submit f N) =
      ns.map fun n => .addSegment f (BitVec.ofNat 8 n) (BitVec.ofNat 8 N) (ds.getD n []) :=
  List.map_map

/-- The segments of all numbers, in any order, have the bytes of the frame. -/
theorem segmentsOf_bytes (h : ns.Perm (List.range ds.length)) :
    ((segmentsOf ds ns).map (·.2.length)).sum = ds.flatten.length := by
  have hperm := (h.map fun n => (ds.getD n []).length).sum_eq
  have hrange := congrArg (fun l => (l.map List.length).sum) (map_getD_range ds)
  simp only [List.map_map] at hrange
  rw [List.length_flatten, segmentsOf, List.map_map]
  exact hperm.trans hrange

/-- R197: with every other segment of the data held, the last answers the frame of the data. -/
theorem FrameHolds.submit_last (hi : s.TableInv) (hc : FrameHolds f ds.length c s)
    (hN : ds.length ≤ 255) (hk : k < ds.length)
    (hheld : ∀ n < ds.length, n ≠ k → c n = some (ds.getD n []))
    (h : exec (submit f ds.length (k, ds.getD k [])) s = .next u) :
    u.response = .events [.frame ⟨f, ds.flatten⟩] ∧ lookupFrame f u.table = none := by
  obtain ⟨hframe, hgone⟩ := hc.submit_fills hi hN hk (fun n hn hnk => by simp [hheld n hn hnk]) h
  refine ⟨hframe.trans ?_, hgone⟩
  have hdata : ∀ n ∈ List.range ds.length,
      (Function.update c k (some (ds.getD k [])) n).getD [] = ds.getD n [] := by
    intro n hn
    by_cases hnk : n = k
    · subst hnk; rw [Function.update_self]; rfl
    · rw [Function.update_of_ne hnk, hheld n (List.mem_range.mp hn) hnk]; rfl
  rw [List.map_congr_left hdata, map_getD_range]

/-- Operations in between keep TABLE's invariants and the segments held of the frame. -/
theorem FrameHolds.between (hi : s.TableInv) (hc : FrameHolds f N c s) (h : Between f s t) :
    t.TableInv ∧ FrameHolds f N c t := by
  obtain ⟨is, hrun, hsame⟩ := h
  exact ⟨performAll_tableInv hi hrun, hc.of_lookup_eq hsame⟩

/-- Numbers of segments in an order, split at the last: each is below the total, the last is not among
the others, and the others are all the rest. -/
structure LastOf (N : Nat) (ks : List Nat) (k : Nat) : Prop where
  last   : k < N
  others : ∀ n ∈ ks, n < N ∧ k ≠ n
  all    : ∀ n < N, n ≠ k → n ∈ ks

theorem lastOf_of_perm (h : (ks ++ [k]).Perm (List.range N)) : LastOf N ks k := by
  have hmem : ∀ n, n ∈ ks ∨ n = k ↔ n < N := fun n => by simpa using h.mem_iff (a := n)
  have hnodup := h.nodup_iff.mpr List.nodup_range
  refine ⟨(hmem k).mp (.inr rfl), fun n hn => ⟨(hmem n).mp (.inl hn), ?_⟩, fun n hn hnk => ?_⟩
  · rintro rfl
    exact (List.nodup_append.mp hnodup).2.2 k hn k (by simp) rfl
  · exact ((hmem n).mpr hn).resolve_right hnk

/-- R199: the order of the segments, and operations that leave the frame's record as it was, make no
difference to the answers. -/
theorem segmentsAdded_answers {rs : List (Nat × Response)} (hN : ds.length ≤ 255) (hk : k < ds.length)
    (hks : ∀ n ∈ ks, n < ds.length ∧ k ≠ n) (hi : s.TableInv) (hc : FrameHolds f ds.length c s)
    (hmissing : c k = none)
    (hheld : ∀ n < ds.length, n ≠ k → storedAll c (segmentsOf ds ks) n = some (ds.getD n []))
    (h : SegmentsAdded f ds s rs t) (hrs : rs.map Prod.fst = ks ++ [k]) :
    rs.map Prod.snd = ks.map (fun _ => .events []) ++ [.events [.frame ⟨f, ds.flatten⟩]] ∧
      lookupFrame f t.table = none := by
  induction ks generalizing s c rs with
  | nil =>
    cases h with
    | done => simp at hrs
    | add hbetween hrun hrest =>
      simp only [List.map_cons, List.nil_append, List.cons.injEq, List.map_eq_nil_iff] at hrs
      obtain ⟨rfl, rfl⟩ := hrs
      obtain ⟨hiu, hcu⟩ := hc.between hi hbetween
      obtain ⟨hframe, hgone⟩ := hcu.submit_last hiu hN hk hheld hrun
      cases hrest with
      | done hafter =>
        obtain ⟨-, -, hsame⟩ := hafter
        exact ⟨by simp [hframe], hsame.trans hgone⟩
  | cons n ks ih =>
    cases h with
    | done => simp at hrs
    | @add _ u v _ m rs hbetween hrun hrest =>
      simp only [List.map_cons, List.cons_append, List.cons.injEq] at hrs
      obtain ⟨rfl, hrs⟩ := hrs
      obtain ⟨hn, hkn⟩ := hks _ List.mem_cons_self
      obtain ⟨hiu, hcu⟩ := hc.between hi hbetween
      obtain ⟨hquiet, hcv⟩ := hcu.submit_kept (p := (m, ds.getD m [])) hiu hN hn hk hkn hmissing hrun
      obtain ⟨hresponses, hgone⟩ := ih (fun i hm => hks i (List.mem_cons_of_mem _ hm))
        (exec_tableInv hiu hrun) hcv (by rwa [Function.update_of_ne hkn]) hheld hrest hrs
      exact ⟨by simp [hquiet, hresponses], hgone⟩

/-- R197, R199: segments submitted back to back answer nothing, and the last one missing answers the frame,
where what was stored last in every other slot is the frame's data there. -/
theorem submits_then_last (hN : ds.length ≤ 255) (hk : k < ds.length)
    (hps : ∀ p ∈ ps, p.1 < ds.length ∧ k ≠ p.1) (hi : s.TableInv) (hnone : lookupFrame f s.table = none)
    (hheld : ∀ n < ds.length, n ≠ k → storedAll (fun _ => none) ps n = some (ds.getD n []))
    (hroom : fits s.cfg (usage s.table + ((ps.map (·.2.length)).sum + (ds.getD k []).length)) = true) :
    ∃ t u, performAll (ps.map (submit f ds.length)) s = .next t ∧ t.response = .events [] ∧
      exec (submit f ds.length (k, ds.getD k [])) t = .next u ∧
      u.response = .events [.frame ⟨f, ds.flatten⟩] ∧ lookupFrame f u.table = none := by
  rw [← Nat.add_assoc] at hroom
  obtain ⟨t, ht, hquiet, hct, hcfg, husage⟩ := performAll_submits hN hk hps hi (.fresh hnone) rfl
    (fits_mono (Nat.le_add_right _ _) hroom)
  have hit := performAll_tableInv hi ht
  obtain ⟨u, hu⟩ : ∃ u, exec (submit f ds.length (k, ds.getD k [])) t = .next u :=
    insertSegment_completes (hit.of_eq rfl rfl)
      (hcfg ▸ fits_mono (Nat.add_le_add_right husage _) hroom)
  obtain ⟨hframe, hgone⟩ := hct.submit_last hit hN hk hheld hu
  exact ⟨t, u, ht, hquiet, hu, hframe, hgone⟩

end

/-- Settles O42: `segmentsAdded_answers`, and back to back `performAll_submits` for all but the last. -/
theorem reassemblyIgnoresSegmentOrder : Obligations.ReassemblyIgnoresSegmentOrder := by
  intro f ds ks k s hi hN hperm hnone
  obtain ⟨hk, hks, hall⟩ := lastOf_of_perm hperm
  have hc : FrameHolds f ds.length (fun _ => none) s := .fresh hnone
  have hheld : ∀ n < ds.length, n ≠ k →
      storedAll (fun _ => none) (segmentsOf ds ks) n = some (ds.getD n []) := fun n hn hnk => by
    rw [storedAll_segmentsOf, if_pos (hall n hn hnk)]
  refine ⟨fun rs t h hrs => segmentsAdded_answers hN hk hks hi hc rfl hheld h hrs, fun hroom => ?_⟩
  rw [← map_submit_segmentsOf]
  refine submits_then_last hN hk (fun p hp => ?_) hi hnone hheld ?_
  · obtain ⟨n, hn, rfl⟩ := List.mem_map.mp hp
    exact hks n hn
  · have hbytes := segmentsOf_bytes hperm
    simp only [segmentsOf, List.map_append, List.sum_append, List.map_cons, List.map_nil,
      List.sum_singleton] at hbytes
    rwa [segmentsOf, hbytes]

/-- Settles O43: `x` is stored in slot `j` and then replaced, so that the segments back to back are those of
`submits_then_last`. -/
theorem secondSubmissionOverwrites : Obligations.SecondSubmissionOverwrites := by
  intro f ds x ks ls k j s hi hN hperm hj hnone hroom
  obtain ⟨hk, hothers, hall⟩ := lastOf_of_perm hperm
  have hmem : ∀ p ∈ segmentsOf ds ks ++ (j, x) :: segmentsOf ds ls, p.1 ∈ ks ++ ls := by
    intro p hp
    simp only [segmentsOf, List.mem_append, List.mem_cons, List.mem_map] at hp
    rcases hp with ⟨n, hn, rfl⟩ | rfl | ⟨n, hn, rfl⟩
    · exact List.mem_append_left _ hn
    · exact List.mem_append_right _ hj
    · exact List.mem_append_right _ hn
  have hheld : ∀ n < ds.length, n ≠ k →
      storedAll (fun _ => none) (segmentsOf ds ks ++ (j, x) :: segmentsOf ds ls) n =
        some (ds.getD n []) := by
    intro n hn hnk
    rw [storedAll_append, storedAll_cons, storedAll_segmentsOf]
    split
    · rfl
    · next hls =>
      have hks : n ∈ ks := (List.mem_append.mp (hall n hn hnk)).resolve_right hls
      have hnj : n ≠ j := fun h => hls (h ▸ hj)
      rw [Function.update_of_ne hnj, storedAll_segmentsOf, if_pos hks]
  have hbytes := segmentsOf_bytes hperm
  have hle : usage s.table + (((segmentsOf ds ks ++ (j, x) :: segmentsOf ds ls).map (·.2.length)).sum +
      (ds.getD k []).length) ≤ usage s.table + ds.flatten.length + x.length := by
    simp only [segmentsOf, List.map_append, List.sum_append, List.map_cons, List.map_nil, List.sum_cons,
      List.sum_nil] at hbytes ⊢
    omega
  obtain ⟨t, u, ht, hquiet, hu, hframe, -⟩ := submits_then_last hN hk
    (fun p hp => hothers p.1 (hmem p hp)) hi hnone hheld (fits_mono hle hroom)
  rw [List.map_append, List.map_cons, map_submit_segmentsOf, map_submit_segmentsOf] at ht
  exact ⟨t, u, ht, hquiet, hu, hframe⟩

end Sys2Proof.Machine

namespace Sys2Proof.Machine

/-! ## RESET, and what no operation reads (R230, R232) -/

section
variable {g : Segment} {i : Instr} {is : List Instr} {s s' : State}

/-- The state `s` with the marks and the pending commands of `o`. -/
def withMarks (o s : State) : State :=
  { s with faultMark := o.faultMark, refusedMark := o.refusedMark, pending := o.pending }

/-- Other marks and pending commands change nothing that `op` does: they are in the state it ends with. -/
def IgnoresMarks (op : State → Result) : Prop :=
  ∀ o s, op (withMarks o s) = andThen (op s) fun t => .next (withMarks o t)

theorem evict_withMarks (o s : State) : evict (withMarks o s) = withMarks o (evict s) := by
  unfold evict withMarks
  dsimp only
  split_ifs <;> rfl

theorem storedRecord_withMarks (o : State) : storedRecord g (withMarks o s) = storedRecord g s := rfl

theorem keepRecord_withMarks (o : State) :
    keepRecord g (withMarks o s) = withMarks o (keepRecord g s) := by
  have htable : (withMarks o s).table = s.table := rfl
  cases h : lookupFrame g.frameID s.table with
  | some A =>
    simp only [keepRecord, storedRecord_withMarks, htable, h]
    rfl
  | none =>
    rw [keepRecord_created h, keepRecord_created (s := withMarks o s) h, ← evict_withMarks]
    rfl

theorem completeFrame_ignoresMarks (g : Segment) : IgnoresMarks (completeFrame g) := by
  intro o s
  simp only [completeFrame, storedRecord_withMarks]
  cases gather (storedRecord g s).segments (storedRecord g s).totalSegments.toNat <;> rfl

/-- R191 to R200: the checks of ADD_SEGMENT read TABLE and the configuration only. -/
theorem insertSegment_ignoresMarks (g : Segment) : IgnoresMarks (insertSegment g) := by
  intro o s
  have ha : Accepted g (withMarks o s) ↔ Accepted g s := Iff.rfl
  have hc : Completes g (withMarks o s) ↔ Completes g s := Iff.rfl
  rcases insertSegment_cases g s with ⟨h, he⟩ | ⟨h, hf, he⟩ | ⟨h, hf, hfull, he⟩ | ⟨h, hf, hfull, he⟩
  · rw [he, insertSegment_rejected (mt ha.mp h)]; rfl
  · rw [he, insertSegment_storeFull (ha.mpr h) hf]; rfl
  · rw [he, insertSegment_complete (ha.mpr h) hf (hc.mpr hfull), completeFrame_ignoresMarks]
  · rw [he, insertSegment_incomplete (ha.mpr h) hf (mt hc.mp hfull), keepRecord_withMarks]; rfl

theorem route_ignoresMarks (p : List Byte) : IgnoresMarks (route p) := by
  unfold route
  cases parsePayload p with
  | ok g => exact insertSegment_ignoresMarks g
  | error e => exact fun _ _ => rfl

theorem runMessage_ignoresMarks (m : Message) : IgnoresMarks (runMessage m) := by
  intro o s
  simp only [runMessage_eq]
  split
  · exact route_ignoresMarks m.payload o (emit (.msg m) s)
  · rfl

theorem runCandidate_ignoresMarks (c : List Byte) : IgnoresMarks (runCandidate c) := by
  unfold runCandidate
  cases decodeWire c with
  | ok m => exact runMessage_ignoresMarks m
  | error e => cases e <;> exact fun _ _ => rfl

/-- R153, R155: one repetition of FEED's loop, and whether there is one. -/
theorem modeStep_withMarks (o s : State) : modeStep (withMarks o s) =
    (modeStep s).map fun r => andThen r fun t => .next (withMarks o t) := by
  cases h : modeStep s with
  | none => exact modeStep_none.mpr ((modeStep_none (s := s)).mp h)
  | some r =>
    rcases modeStep_some h with ⟨hm, b0, b1, b2, rest, hb, rfl⟩ | ⟨ty, len, hm, hl, rfl⟩
    · exact modeStep_header (s := withMarks o s) hm hb
    · exact (modeStep_candidate (s := withMarks o s) hm hl).trans
        (congrArg some (runCandidate_ignoresMarks _ o
          { s with buf := s.buf.drop (len.toNat + 4), mode := .awaitingHeader }))

theorem feedLoop_ignoresMarks (n : Nat) : IgnoresMarks (feedLoop n) := by
  intro o s
  induction n generalizing s with
  | zero => rfl
  | succ n ih =>
    simp only [feedLoop, modeStep_withMarks]
    cases modeStep s with
    | none => rfl
    | some r =>
      cases r with
      | next t => exact ih t
      | fault f => rfl
      | refused r => rfl

theorem execFeed_ignoresMarks (c : List Byte) : IgnoresMarks (execFeed c) :=
  fun o s => feedLoop_ignoresMarks _ o (appendBuf c (beginEvents s))

/-- R66: an operation whose answer its operands settle. -/
theorem ignoresMarks_of_respond {op : State → Result} (h : ∃ r, ∀ s, op s = .next (respond r s)) :
    IgnoresMarks op := by
  obtain ⟨r, h⟩ := h
  intro o s
  rw [h, h]
  rfl

theorem execEncode_ignoresMarks (tc : Byte) (p : List Byte) : IgnoresMarks (execEncode tc p) := by
  obtain h | ⟨r, h⟩ := execEncode_uniform tc p
  · exact ignoresMarks_of_respond h
  · intro o s
    rw [h, h]
    rfl

/-- No instruction reads FAULT, REFUSED or what is still pending. -/
theorem exec_ignoresMarks (i : Instr) : IgnoresMarks (exec i) := by
  cases i with
  | encode tc p => exact execEncode_ignoresMarks tc p
  | decode bs => exact ignoresMarks_of_respond (execDecode_uniform bs)
  | feed c => exact execFeed_ignoresMarks c
  | feedByte b => exact execFeed_ignoresMarks [b]
  | parseSegment p => exact ignoresMarks_of_respond (execParseSegment_uniform p)
  | addSegment f k n d => exact fun o s => insertSegment_ignoresMarks ⟨f, k, n, d⟩ o (beginEvents s)
  | reset => exact fun _ _ => rfl
  | msgControl p => exact runMessage_ignoresMarks ⟨.control, p⟩
  | msgData p => exact runMessage_ignoresMarks ⟨.data, p⟩
  | msgError p => exact runMessage_ignoresMarks ⟨.error, p⟩
  | msgAck p => exact runMessage_ignoresMarks ⟨.ack, p⟩
  | msgInfo p => exact runMessage_ignoresMarks ⟨.info, p⟩

/-- Where a first operation ends alike from `s` and `s'` but for the marks, so do those after it. -/
theorem performAll_cons_withMarks {o : State} (his : IgnoresMarks (performAll is))
    (h : exec i s' = andThen (exec i s) fun t => .next (withMarks o t)) :
    performAll (i :: is) s' = andThen (performAll (i :: is) s) fun t => .next (withMarks o t) := by
  simp only [performAll, h, andThen_assoc, andThen_next, his o]
  rfl

theorem performAll_ignoresMarks (is : List Instr) : IgnoresMarks (performAll is) := by
  induction is with
  | nil => exact fun _ _ => rfl
  | cons i is ih => exact fun o s => performAll_cons_withMarks ih (exec_ignoresMarks i o s)

/-- R230: after RESET two blocks of one configuration differ in their marks and pending commands alone. -/
theorem exec_reset_withMarks (h : s.cfg = s'.cfg) :
    exec .reset s' = andThen (exec .reset s) fun t => .next (withMarks s' t) := by
  simp only [exec, execReset, respond, andThen_next, withMarks, h]

end

/-- Settles O48: `exec_reset_withMarks`, and the operations after RESET read neither the marks nor what is
pending. -/
theorem resetCarriesNothingOver : Obligations.ResetCarriesNothingOver := by
  intro is s s' u hcfg h
  have hrun := performAll_cons_withMarks (performAll_ignoresMarks is) (exec_reset_withMarks hcfg)
  rw [h, andThen_next] at hrun
  exact ⟨withMarks s' u, hrun, rfl, rfl, rfl, rfl⟩

/-- Settles O47: each clause is a field of the state that RESET writes or leaves. -/
theorem resetDiscardsEverything : Obligations.ResetDiscardsEverything :=
  fun _ => ⟨_, rfl, rfl, rfl, rfl, rfl, rfl, rfl, rfl, rfl, rfl⟩

end Sys2Proof.Machine

namespace Sys2Proof.Machine

/-! ## No fault where the invariants hold (R247) -/

section
variable {i : Instr} {s : State} {f : Fault}

theorem State.Inv.consistent (hi : s.Inv) : s.consistent = true := by
  simp only [State.consistent, hi.deframer, Bool.true_and, List.all_eq_true]
  exact hi.records

/-- FEED's loop begins with its header latched, if MODE says so, and with the invariants of TABLE. -/
theorem execFeed_ne_fault (hi : s.Inv) (c : List Byte) (f : Fault) : execFeed c s ≠ .fault f :=
  feedRun_ne_fault (s := appendBuf c (beginEvents s)) (hi.toTableInv.of_eq rfl rfl)
    (latched_append (latched_of_ok hi.deframer)) f

/-- Only the instructions that store a segment or run FEED's loop could fault, and they do not. -/
theorem exec_ne_fault (hi : s.Inv) (f : Fault) : exec i s ≠ .fault f := by
  cases i with
  | encode tc p =>
    obtain ⟨r, h⟩ | ⟨r, h⟩ := execEncode_uniform tc p <;> simp [exec, h]
  | decode bs => simp [exec_decode]
  | feed c => exact execFeed_ne_fault hi c f
  | feedByte b => exact execFeed_ne_fault hi [b] f
  | parseSegment p =>
    obtain ⟨r, h⟩ := execParseSegment_uniform p
    simp [exec, h]
  | addSegment g k t d =>
    exact insertSegment_ne_fault (s := beginEvents s) (hi.toTableInv.of_eq rfl rfl) f
  | msgData p => exact route_ne_fault (emit_tableInv _ hi.toTableInv) f
  | reset | msgControl | msgError | msgAck | msgInfo => exact fun h => nomatch h

/-- The test at the end of a step never fails on a state with the invariants. -/
theorem endStep_ne_fault {o : Result} (hfault : o ≠ .fault f) (hnext : ∀ t, o = .next t → t.Inv) :
    endStep o ≠ .fault f := by
  cases o with
  | next t => simp [endStep, (hnext t rfl).consistent]
  | fault g => exact hfault
  | refused r => simp [endStep]

/-- A block that is not faulted faults in a step only where the first pending command runs. -/
theorem step_fault (hclear : s.faultMark = none) (h : step s = .fault f) :
    ∃ c cs i, s.pending = c :: cs ∧ decodeCommand c = .ok i ∧
      endStep (exec i { s with pending := cs }) = .fault f := by
  cases hfirst : s.pending with
  | nil => rw [step_of_nothing_pending hclear hfirst] at h; cases h
  | cons c cs =>
    cases hdecode : decodeCommand c with
    | ok i =>
      rw [step_of_decoded hclear hfirst hdecode] at h
      exact ⟨c, cs, i, rfl, hdecode, h⟩
    | error e => cases e <;> simp [step, issue, hclear, hfirst, hdecode] at h

end

/-- Settles O52: the command that runs faults neither by itself nor at the test of the invariants, which it
keeps. -/
theorem noStepFaults : Obligations.NoStepFaults := by
  intro s f hi hclear h
  obtain ⟨c, cs, i, -, -, hrun⟩ := step_fault hclear h
  have hi' := hi.withPending cs
  exact endStep_ne_fault (exec_ne_fault hi' f) (fun t => exec_inv hi') hrun

end Sys2Proof.Machine

namespace Sys2Proof

/-! ## Opcodes of no operation (R97) -/

theorem takeOperand_ne_illegalOpcode (n : Nat) (r : List Byte) (mk : List Byte → Instr) :
    takeOperand n r mk ≠ .error .illegalOpcode := by
  unfold takeOperand
  split <;> simp

/-- R97: only an opcode byte of no operation is rejected as one. -/
theorem decodePrefix_illegalOpcode {bs : List Byte} (h : decodePrefix bs = .error .illegalOpcode) :
    ∃ op rest, bs = op :: rest ∧ (op = 0x00 ∨ 0x08 ≤ op.toNat) := by
  cases bs with
  | nil => cases h
  | cons op rest =>
    refine ⟨op, rest, rfl, ?_⟩
    simp only [decodePrefix] at h
    split at h
    case h_8 h1 h2 h3 h4 h5 h6 h7 =>
      rw [imp_false] at h1 h2 h3 h4 h5 h6 h7
      have hop : op.toNat = 0 ∨ 8 ≤ op.toNat := by omega
      exact hop.imp_left eq_ofNat_of_toNat
    case h_4 => split at h <;> cases h
    case h_7 => cases h
    all_goals
      split at h
      · exact absurd h (takeOperand_ne_illegalOpcode _ _ _)
      · cases h

theorem decodePrefix_of_illegalOpcode {bs : List Byte} (h : decodeCommand bs = .error .illegalOpcode) :
    decodePrefix bs = .error .illegalOpcode := by
  unfold decodeCommand at h
  split at h
  · cases h
  · cases h
  · next e he => cases h; exact he

/-- R97, R248: the bytes rejected as no operation are those whose first byte is no opcode. -/
theorem decodeCommand_illegalOpcode_iff {bs : List Byte} :
    decodeCommand bs = .error .illegalOpcode ↔
      ∃ op rest, bs = op :: rest ∧ (op = 0x00 ∨ 0x08 ≤ op.toNat) := by
  constructor
  · exact fun h => decodePrefix_illegalOpcode (decodePrefix_of_illegalOpcode h)
  · rintro ⟨op, rest, rfl, hop⟩
    exact decodeCommand_illegalOpcode hop rest

end Sys2Proof

namespace Sys2Proof.Machine

/-! ## The causes of a refusal (R120, R200, R248) -/

section
variable {i : Instr} {s : State} {c p : List Byte} {m : Message} {g : Segment} {tc : Byte} {r : Refusal}

/-- R120: the two preconditions of ENCODE. -/
theorem execEncode_refused (h : execEncode tc p s = .refused r) :
    (r = .unknownEncodeType ∧ tc ∉ [(0x01 : Byte), 0x02, 0x03, 0x04, 0x05]) ∨
      (r = .payloadTooLong ∧ Config.lenMax < p.length) := by
  unfold execEncode at h
  split_ifs at h with hrecognized hlong
  · cases h
    exact .inr ⟨rfl, hlong⟩
  · cases h
    exact .inl ⟨rfl, mt (recognized_iff tc).mpr hrecognized⟩

/-- R49, R200: an unbounded store is never full. -/
theorem insertSegment_refused_bounded (h : insertSegment g s = .refused r) : s.cfg.storeCap ≠ none := by
  obtain ⟨-, hfull⟩ := insertSegment_refused h
  intro hcap
  simp [fits, hcap] at hfull

theorem route_refused_bounded (h : route p s = .refused r) : s.cfg.storeCap ≠ none := by
  unfold route at h
  split at h
  · exact insertSegment_refused_bounded h
  · cases h

theorem runMessage_refused_bounded (h : runMessage m s = .refused r) : s.cfg.storeCap ≠ none := by
  rw [runMessage_eq] at h
  split at h
  · exact route_refused_bounded (s := emit (.msg m) s) h
  · cases h

theorem runCandidate_refused_bounded (h : runCandidate c s = .refused r) : s.cfg.storeCap ≠ none := by
  unfold runCandidate at h
  split at h
  · exact runMessage_refused_bounded h
  all_goals cases h

theorem modeStep_refused_bounded (h : modeStep s = some (.refused r)) : s.cfg.storeCap ≠ none := by
  rcases modeStep_some h with ⟨-, _, _, _, _, -, ho⟩ | ⟨ty, len, -, -, ho⟩
  · cases ho
  · exact runCandidate_refused_bounded
      (s := { s with buf := s.buf.drop (len.toNat + 4), mode := .awaitingHeader }) ho.symm

theorem modeStep_cfg {t : State} (h : modeStep s = some (.next t)) : t.cfg = s.cfg := by
  rcases modeStep_some h with ⟨-, _, _, _, _, -, ho⟩ | ⟨ty, len, -, -, ho⟩
  · cases ho
    rfl
  · exact (runCandidate_sameRest ho.symm).cfg

/-- FEED's loop is refused where one of its repetitions is, under the same configuration. -/
theorem feedRun_refused_bounded (h : feedRun s = .refused r) : s.cfg.storeCap ≠ none := by
  induction s using loop_induct with
  | repetition s ih =>
    cases hm : modeStep s with
    | none => rw [feedRun_stop hm] at h; cases h
    | some o =>
      rw [feedRun_go hm] at h
      cases o with
      | next t => rw [← modeStep_cfg hm]; exact ih t hm h
      | fault f => cases h
      | refused q => exact modeStep_refused_bounded hm

theorem execFeed_refused (h : execFeed c s = .refused r) : r = .storeFull ∧ s.cfg.storeCap ≠ none :=
  ⟨feedRun_refused (s := appendBuf c (beginEvents s)) h,
    feedRun_refused_bounded (s := appendBuf c (beginEvents s)) h⟩

/-- A command's own refusal is one of ENCODE's preconditions, or StoreFull where segments are stored. -/
theorem exec_command_refused (hspace : i.space = .command) (h : exec i s = .refused r) :
    (∃ tc p, i = .encode tc p ∧ execEncode tc p s = .refused r) ∨
      (r = .storeFull ∧ s.cfg.storeCap ≠ none ∧
        ((∃ f k t d, i = .addSegment f k t d) ∨ (∃ x, i = .feed x) ∨ ∃ b, i = .feedByte b)) := by
  cases i with
  | encode tc p => exact .inl ⟨tc, p, rfl, h⟩
  | decode bs => rw [exec_decode] at h; cases h
  | feed c =>
    obtain ⟨hr, hcap⟩ := execFeed_refused h
    exact .inr ⟨hr, hcap, .inr (.inl ⟨c, rfl⟩)⟩
  | feedByte b =>
    obtain ⟨hr, hcap⟩ := execFeed_refused (c := [b]) h
    exact .inr ⟨hr, hcap, .inr (.inr ⟨b, rfl⟩)⟩
  | parseSegment p =>
    obtain ⟨q, hq⟩ := execParseSegment_uniform p
    simp [exec, hq] at h
  | addSegment f k t d =>
    exact .inr ⟨(insertSegment_refused h).1, insertSegment_refused_bounded (s := beginEvents s) h,
      .inl ⟨f, k, t, d, rfl⟩⟩
  | reset => cases h
  | msgControl | msgData | msgError | msgAck | msgInfo => cases hspace

end

/-- Settles O54: the three ways a step is refused, the last one by the command that was read; the count
field of ENCODE cannot spell a payload that is too long. -/
theorem refusalsHaveTheirReasons : Obligations.RefusalsHaveTheirReasons := by
  intro s r h
  obtain ⟨c, cs, hfirst, hway⟩ := step_refused h
  refine ⟨c, cs, hfirst, ?_⟩
  rcases hway with ⟨hillegal, rfl⟩ | ⟨hcut, rfl⟩ | ⟨i, hdecode, hrun⟩
  · exact .inl ⟨rfl, decodeCommand_illegalOpcode_iff.mp hillegal⟩
  · refine .inr (.inl ⟨rfl, fun i hi => ?_⟩)
    rw [hi] at hcut
    simp at hcut
  · obtain ⟨hwf, hspace, -⟩ := commandBytesHaveOneMeaning c i hdecode
    rcases exec_command_refused hspace hrun with ⟨tc, p, rfl, hencode⟩ | ⟨hr, hcap, hi⟩
    · have hfits : p.length ≤ Config.lenMax := of_decide_eq_true hwf
      rcases execEncode_refused hencode with ⟨hr, htc⟩ | ⟨-, hlong⟩
      · exact .inr (.inr (.inl ⟨hr, tc, p, hdecode, htc⟩))
      · exact absurd hfits (not_le.mpr hlong)
    · exact .inr (.inr (.inr ⟨hr, hcap, i, hdecode, hi⟩))

end Sys2Proof.Machine

namespace Sys2Proof

/-! ## Commands cut short or with bytes left over (R96, R283) -/

section
variable {c x rest : List Byte} {i : Instr}

/-- A command at the front of the bytes is read the same whatever more bytes come behind them. -/
theorem decodePrefix_append (h : decodePrefix c = .ok (i, rest)) (x : List Byte) :
    decodePrefix (c ++ x) = .ok (i, rest ++ x) := by
  obtain ⟨hwf, hspace, rfl⟩ := decodePrefix_ok h
  rw [List.append_assoc]
  exact decodePrefix_encode_append hwf hspace (rest ++ x)

/-- No command is a proper beginning of another. -/
theorem decodeCommand_cut_ne_ok (h : decodeCommand (c ++ x) = .ok i) (hx : x ≠ [])
    (j : Instr) : decodeCommand c ≠ .ok j := by
  intro hj
  have hlonger : decodePrefix (c ++ x) = .ok (j, x) := decodePrefix_append (decodeCommand_ok_iff.mp hj) x
  rw [decodeCommand_ok_iff.mp h] at hlonger
  cases hlonger
  exact hx rfl

/-- The first byte of a command is an opcode of an operation, however few bytes follow it. -/
theorem decodeCommand_cut_ne_illegalOpcode (h : decodeCommand (c ++ x) = .ok i) :
    decodeCommand c ≠ .error .illegalOpcode := by
  intro hillegal
  obtain ⟨op, rest, rfl, hop⟩ := decodeCommand_illegalOpcode_iff.mp hillegal
  rw [List.cons_append, decodeCommand_illegalOpcode hop] at h
  cases h

/-- R283: a well-formed command with more bytes behind it is rejected for the bytes left over. -/
theorem decodeCommand_encode_append (hwf : i.wellFormed = true) (hspace : i.space = .command)
    (hx : x ≠ []) : decodeCommand (encode i ++ x) = .error .bytesLeftOver := by
  obtain ⟨b, bs, rfl⟩ := List.exists_cons_of_ne_nil hx
  simp only [decodeCommand, decodePrefix_encode_append hwf hspace]

end

end Sys2Proof

namespace Sys2Proof.Machine

section
variable {s : State} {c : List Byte} {cs : List (List Byte)}

/-- R283, log 9: bytes that are no command, under an opcode of an operation, are refused as such. -/
theorem step_of_noCommand (hclear : s.faultMark = none) (hfirst : s.pending = c :: cs)
    (hcommand : ∀ i, decodeCommand c ≠ .ok i) (hopcode : decodeCommand c ≠ .error .illegalOpcode) :
    step s = .refused .notACommand := by
  cases hdecode : decodeCommand c with
  | ok i => exact absurd hdecode (hcommand i)
  | error e =>
    cases e with
    | illegalOpcode => exact absurd hdecode hopcode
    | cutShort | bytesLeftOver => simp only [step, issue, hclear, hfirst, hdecode]

end

/-- Settles O10: what is cut short decodes neither to a command nor to an illegal opcode, since the whole
command decodes to its instruction; with bytes behind it, the decoder finds those left over. -/
theorem malformedCommandsAreRefused : Obligations.MalformedCommandsAreRefused := by
  intro s i c x cs hwf hspace hclear hx
  refine ⟨fun hcut hfirst => ?_, fun hlong hfirst => ?_⟩
  · have hwhole : decodeCommand (c ++ x) = .ok i := hcut ▸ commandRoundTrip i hwf hspace
    exact step_of_noCommand hclear hfirst (decodeCommand_cut_ne_ok hwhole hx)
      (decodeCommand_cut_ne_illegalOpcode hwhole)
  · have hover : decodeCommand c = .error .bytesLeftOver :=
      hlong ▸ decodeCommand_encode_append hwf hspace hx
    exact step_of_noCommand hclear hfirst (by simp [hover]) (by simp [hover])

/-! ## Power-on (R46, R270) -/

/-- R37, R49: an empty TABLE is within any MAX_FRAMES of at least 1 and an unbounded store. -/
theorem reset_tableInv : State.reset.TableInv where
  records := fun _ hA => absurd hA List.not_mem_nil
  unique := List.nodup_nil
  bounded := Nat.zero_le _
  stored := rfl
  tracks := Nat.le_add_left 1 Config.maxFramesLessOne

/-- R33: an empty BUF is no complete header. -/
theorem reset_inv : State.reset.Inv := ⟨reset_tableInv, rfl⟩

/-- Settles O51: the invariants by `reset_inv`, and each field that RESET writes or leaves is as at
power-on. -/
theorem powerOnHasTheInvariants : Obligations.PowerOnHasTheInvariants :=
  ⟨reset_inv, ⟨rfl, rfl⟩, rfl, rfl, rfl, rfl, _, rfl, rfl, rfl, rfl, rfl, rfl, rfl⟩

end Sys2Proof.Machine
